-- ==== Sys2Proof/Word.lean ====
section
/-! DEFINITION. The two sizes of value the spec moves: a byte and a 16-bit word (00_scope.md R6, R7). -/

namespace Sys2Proof

/-- A memory byte, a register A, X or Y, an opcode byte or a one-byte operand (R6). -/
abbrev Byte := BitVec 8

/-- A 16-bit value: PC, SP, the target of JSR, a return address (R6). -/
abbrev Word := BitVec 16

end Sys2Proof
end

