-- ==== Sys2Proof/Syntax.lean ====
section
/-! DEFINITION. The instructions: one constructor per row of spec/opcode_table.json, with the operand fields of
30_encoding.md R56. An unknown opcode is not an instruction (R56, R63) and has no constructor. -/

namespace Sys2Proof

/-- The four instructions of 30_encoding.md R60, each with its operand as the instruction stream carries it. -/
inductive Instr where
  /-- LDA Immediate, 0xA9 (42_load_accumulator.md R89). -/
  | ldaImm (imm8 : Byte)
  /-- LDA Zero Page, 0xA5 (R90). -/
  | ldaZp (zp8 : Byte)
  /-- LDA Zero Page,X, 0xB5 (R91). -/
  | ldaZpX (zp8 : Byte)
  /-- JSR Absolute, 0x20 (43_jump_to_subroutine.md R93). -/
  | jsr (addr : Word)
  deriving DecidableEq, Repr

end Sys2Proof
end

