-- ==== Sys2Proof/Decode.lean ====
section
/-! DEFINITION. From bytes to instructions and back: the byte-order helpers, the opcode map of 30_encoding.md R60,
the decoder over a list of bytes, and the encoder. -/

namespace Sys2Proof

/-! ### Fields and byte order (00_scope.md R7) -/

/-- `w[7:0]`. -/
def lowByte (w : Word) : Byte := w.extractLsb' 0 8

/-- `w[15:8]`. -/
def highByte (w : Word) : Byte := w.extractLsb' 8 8

/-- `{hi, lo}`, the value `hi * 256 + lo`. -/
def wordOf (hi lo : Byte) : Word := hi ++ lo

/-- `zext_16(b)`. -/
def zext16 (b : Byte) : Word := b.setWidth 16

/-! ### Formats (30_encoding.md R56) -/

/-- The four formats of R56; `op` is the one-byte form of every unknown opcode. -/
inductive Format where
  | imm8
  | zp8
  | abs16
  | op
  deriving DecidableEq, Repr

/-- The length column of R56: the opcode byte and its operand bytes. -/
def Format.length : Format → Nat
  | .imm8 => 2
  | .zp8 => 2
  | .abs16 => 3
  | .op => 1

/-! ### The opcode map (30_encoding.md R60) -/

/-- The rows of R60: an operation with its addressing mode, before its operand is known. -/
inductive Opcode where
  | ldaImm
  | ldaZp
  | ldaZpX
  | jsr
  deriving DecidableEq, Repr

/-- The format column of R60. -/
def Opcode.format : Opcode → Format
  | .ldaImm => .imm8
  | .ldaZp => .zp8
  | .ldaZpX => .zp8
  | .jsr => .abs16

/-- The instruction an opcode makes with its operand. A one-byte operand stands in bits 7:0 of `operand`. -/
def Opcode.instr (o : Opcode) (operand : Word) : Instr :=
  match o with
  | .ldaImm => .ldaImm (lowByte operand)
  | .ldaZp => .ldaZp (lowByte operand)
  | .ldaZpX => .ldaZpX (lowByte operand)
  | .jsr => .jsr operand

/-- One row of the opcode map: the whole opcode byte (mask 0xFF, R61) and what it stands for. -/
structure OpcodeRow where
  byte : Byte
  opcode : Opcode
  deriving DecidableEq, Repr

/-- The fixed table of R60, with exactly four entries. -/
def opcodeTable : List OpcodeRow :=
  [⟨0xA9#8, .ldaImm⟩, ⟨0xA5#8, .ldaZp⟩, ⟨0xB5#8, .ldaZpX⟩, ⟨0x20#8, .jsr⟩]

/-- Phase 2, `Decode(op)` (40_fetch_decode_dispatch.md R72): the table's entry for the byte, or none where the
byte is an unknown opcode (30_encoding.md R63). It reads only `op`. -/
def decodeOpcode (op : Byte) : Option Opcode :=
  (opcodeTable.find? fun r => r.byte == op).map OpcodeRow.opcode

/-- The format an opcode byte selects; `op` for an unknown opcode (R56). -/
def formatOf (op : Byte) : Format :=
  match decodeOpcode op with
  | some o => o.format
  | none => .op

/-- Instruction length, determined by the opcode byte alone (R62). -/
def lengthOf (op : Byte) : Nat := (formatOf op).length

/-! ### The decoder -/

/-- Why a list of bytes is no instruction. -/
inductive DecodeError where
  /-- There is no byte. -/
  | noBytes
  /-- The first byte is an unknown opcode (R63). -/
  | unknownOpcode (op : Byte)
  /-- The bytes end before the operand does. -/
  | missingOperand (op : Byte)
  deriving DecidableEq, Repr

/-- The operand bytes of a format, taken from the front of the bytes after the opcode (R57, R58, R59). -/
def takeOperand (f : Format) (bytes : List Byte) : Option (Word × List Byte) :=
  match f with
  | .op => some (0, bytes)
  | .imm8 =>
    match bytes with
    | [] => none
    | b :: rest => some (zext16 b, rest)
  | .zp8 =>
    match bytes with
    | [] => none
    | b :: rest => some (zext16 b, rest)
  | .abs16 =>
    match bytes with
    | lo :: hi :: rest => some (wordOf hi lo, rest)
    | _ => none

/-- The instruction at the front of a list of bytes and the bytes after it (R55, R60, R62). -/
def decode (bytes : List Byte) : Except DecodeError (Instr × List Byte) :=
  match bytes with
  | [] => .error .noBytes
  | op :: rest =>
    match decodeOpcode op with
    | none => .error (.unknownOpcode op)
    | some o =>
      match takeOperand o.format rest with
      | none => .error (.missingOperand op)
      | some (operand, rest') => .ok (o.instr operand, rest')

/-! ### The encoder -/

/-- The bytes of an instruction in the order of their addresses (R55, R56, R60). -/
def encode : Instr → List Byte
  | .ldaImm imm8 => [0xA9#8, imm8]
  | .ldaZp zp8 => [0xA5#8, zp8]
  | .ldaZpX zp8 => [0xB5#8, zp8]
  | .jsr addr => [0x20#8, lowByte addr, highByte addr]

/-! ### Words numbered as spec/opcode_table.json numbers them -/

/-- The first three bytes of an instruction whose bits are the low `nbits` bits of `w`, bit 0 the least
significant bit of the first byte; every bit from `nbits` on is 0. Three bytes are the longest instruction (R56). -/
def tableBytes (nbits w : Nat) : List Byte :=
  let v := w % 2 ^ nbits
  [BitVec.ofNat 8 v, BitVec.ofNat 8 (v / 256), BitVec.ofNat 8 (v / 65536)]

/-- The instruction the decoder reads from an opcode-table word, or none where it rejects it. -/
def decodeTableWord (nbits w : Nat) : Option Instr :=
  match decode (tableBytes nbits w) with
  | .ok (i, _) => some i
  | .error _ => none

end Sys2Proof
end

