-- ==== Sys2Proof/Config.lean ====
section
/-! DEFINITION. The implementation parameters of 00_scope.md R6 that are plain constants, and the reset
values of 10_state.md R31 that are not zero. The spec leaves no value free (R15), so nothing here is opaque. -/

namespace Sys2Proof.Config

/-- Memory size: addresses run from 0 to 65535 (R6, 20_memory.md R34). -/
def memSize : Nat := 65536

/-- What an address that the memory does not list reads as: the reset contents of every byte (R31, R40). -/
def unlistedByte : Byte := 0x00#8

/-- The reset value of PC, itself the address of the first opcode (R31, R115). -/
def resetPc : Word := 0xFFFC#16

/-- The reset value of SP (R31). -/
def resetSp : Word := 0x0100#16

/-- The value `budget` is given in `State.reset`. DESIGN CHOICE (log 1): the spec gives none until `execute`
sets it (R31). -/
def resetBudget : Int := 0

end Sys2Proof.Config
end

