-- ==== Sys2Proof/Machine/State.lean ====
section
/-! DEFINITION. The state of the machine, the whole of 10_state.md, as plain data, and its value after reset. -/

namespace Sys2Proof.Machine

/-- What `fault` can record (10_state.md R30), and what a step from a faulted state stops with. -/
inductive Fault where
  /-- A memory access at the integer address `addr`, outside [0, 65535] (20_memory.md R37, 60_exceptions.md R100).
  Raised by JSR with SP = 0xFFFF (R101), which sets `State.fault`; every later step from that state stops with it.
  Safe: the spec's machine runs nothing either until reset (40_fetch_decode_dispatch.md R68). -/
  | outOfRangeAccess (addr : Nat)
  deriving DecidableEq, Repr

/-- Why a step has no meaning. No instruction of this model is refused. -/
inductive Refusal where
  /-- For an arm of exec whose instruction has no meaning yet: no arm raises it. Safe. -/
  | notModelled (mnemonic : String)
  deriving DecidableEq, Repr

/-- A record of the diagnostic log (10_state.md R29). -/
inductive LogRecord where
  /-- `Unknown(addr, op)`: the unknown opcode byte `op` was met at address `addr`. -/
  | unknown (addr : Word) (op : Byte)
  deriving DecidableEq, Repr

/-- The seven independent 1-bit status flags C, Z, I, D, B, V, N (10_state.md R23), with no packed layout (R26). -/
structure Flags where
  c : Bool
  z : Bool
  i : Bool
  d : Bool
  b : Bool
  v : Bool
  n : Bool
  deriving DecidableEq, Repr

/-- Memory contents: the bytes that differ from `Config.unlistedByte`, addresses rising (20_memory.md R34). -/
abbrev Memory := List Host.Cell

/-- Everything the spec gives the machine (10_state.md R17 to R30, 20_memory.md R35). -/
structure State where
  /-- PC: between instructions the address of the next opcode byte (R21). -/
  pc : Word
  /-- SP: the absolute address of the return-address bytes (R22). -/
  sp : Word
  /-- Accumulator A (R17). -/
  a : Byte
  /-- Index register X (R18). -/
  x : Byte
  /-- Index register Y (R19). -/
  y : Byte
  /-- The status flags (R23). -/
  flags : Flags
  /-- The memory attached to the core (R34, R35). -/
  mem : Memory
  /-- The cycle budget, signed and unbounded (R27). -/
  budget : Int
  /-- The diagnostic log, oldest record first (R29). -/
  log : List LogRecord
  /-- The fault state (R30): none, or the out-of-range access that stopped the core. -/
  fault : Option Fault
  deriving DecidableEq, Repr

/-- All seven flags 0 (70_reset_and_hazards.md R114). -/
def Flags.reset : Flags :=
  { c := false, z := false, i := false, d := false, b := false, v := false, n := false }

/-- The state right after the first reset of a session (10_state.md R31, 70_reset_and_hazards.md R113).
The budget is the model's own value (log 1). -/
def State.reset : State where
  pc := Config.resetPc
  sp := Config.resetSp
  a := 0x00#8
  x := 0x00#8
  y := 0x00#8
  flags := Flags.reset
  mem := []
  budget := Config.resetBudget
  log := []
  fault := none

end Sys2Proof.Machine
end

