-- ==== Sys2Proof/Machine/Memory.lean ====
section
/-! DEFINITION. The memory as a list in one canonical form: reading a byte, writing a byte, zeroing it all, and the
predicate that says the form holds. -/

namespace Sys2Proof.Machine

/-- The byte at an address: the listed one, or what an unlisted address reads as. -/
def Memory.read : Memory → Nat → Byte
  | [], _ => Config.unlistedByte
  | cell :: rest, addr => if cell.1 = addr then cell.2 else Memory.read rest addr

/-- Put a cell before the first cell of a higher address. -/
def Memory.place (cell : Host.Cell) : Memory → Memory
  | [] => [cell]
  | head :: rest => if cell.1 < head.1 then cell :: head :: rest else head :: Memory.place cell rest

/-- Drop whatever is listed for an address. -/
def Memory.without (mem : Memory) (addr : Nat) : Memory := mem.filter fun cell => cell.1 != addr

/-- Store a byte: the address is listed with it, or not at all where an unlisted address reads as that byte. -/
def Memory.write (mem : Memory) (addr : Nat) (v : Byte) : Memory :=
  if v = Config.unlistedByte then Memory.without mem addr
  else Memory.place (addr, v) (Memory.without mem addr)

/-- `Initialise`: every byte 0x00 (20_memory.md R40), which is the memory that lists nothing. -/
def Memory.initialised : Memory := []

/-- The canonical form: addresses strictly rise, every listed address exists (R34), and no listed byte is what the
address would read as unlisted. Equal memories are then equal lists. -/
abbrev Memory.wf (mem : Memory) : Prop :=
  mem.Pairwise (fun p q => p.1 < q.1) ∧
    ∀ cell ∈ mem, cell.1 < Config.memSize ∧ cell.2 ≠ Config.unlistedByte

end Sys2Proof.Machine
end

