-- ==== Sys2Proof/Machine/Ops.lean ====
section
/-! DEFINITION. The named operations every meaning is written with: the updates of one field, the memory port,
raising the one fault, and the cycle-charging primitives of 20_memory.md. -/

namespace Sys2Proof.Machine

/-! ### Updates of one field -/

/-- `PC <- v`. -/
def State.setPc (s : State) (v : Word) : State := { s with pc := v }

/-- `SP <- v`; only the host does so (10_state.md R22). -/
def State.setSp (s : State) (v : Word) : State := { s with sp := v }

/-- `A <- v`. -/
def State.setA (s : State) (v : Byte) : State := { s with a := v }

/-- `X <- v`; only the host does so (10_state.md R18). -/
def State.setX (s : State) (v : Byte) : State := { s with x := v }

/-- `Y <- v`; only the host does so (10_state.md R19). -/
def State.setY (s : State) (v : Byte) : State := { s with y := v }

/-- Write the flags. -/
def State.setFlags (s : State) (f : Flags) : State := { s with flags := f }

/-- Write the memory. -/
def State.setMem (s : State) (m : Memory) : State := { s with mem := m }

/-- `budget <- n`. -/
def State.setBudget (s : State) (n : Int) : State := { s with budget := n }

/-- `log <- log ++ [r]`. -/
def State.appendLog (s : State) (r : LogRecord) : State := { s with log := s.log ++ [r] }

/-- `fault <- f`. -/
def State.setFault (s : State) (f : Fault) : State := { s with fault := some f }

/-- `budget <- budget - n`: a charge of `n` cycles (00_scope.md R8). -/
def State.charge (s : State) (n : Int) : State := s.setBudget (s.budget - n)

/-- `mem[addr]`: the model's read of one byte. -/
def State.byteAt (s : State) (addr : Nat) : Byte := Memory.read s.mem addr

/-! ### The outcome of a primitive -/

/-- What a primitive leaves: a value and a state, or the state in which it raised the fault. -/
inductive Prim (α : Type) where
  | done (v : α) (s : State)
  | raised (s : State)
  deriving DecidableEq, Repr

/-- Go on after a primitive. After a raise no later primitive of the instruction runs and nothing later is written
(40_fetch_decode_dispatch.md R80). -/
def Prim.andThen {α β : Type} (r : Prim α) (next : α → State → Prim β) : Prim β :=
  match r with
  | .done v s => next v s
  | .raised s => .raised s

/-- The end of an instruction. A raise is a next state too: the one in which `fault` is set (60_exceptions.md R100). -/
def Prim.finish (r : Prim Unit) : Host.Outcome State Fault Refusal :=
  match r with
  | .done _ s => .next s
  | .raised s => .next s

/-- `raise OutOfRangeAccess(addr)` (60_exceptions.md R100): `fault` is set and the instruction is abandoned; what it
wrote before stays written. There is no trap entry: no register is saved and control goes nowhere (R103); and no
trap return (R104): `fault` is cleared by reset alone. -/
def raiseOutOfRange {α : Type} (addr : Nat) (s : State) : Prim α :=
  .raised (s.setFault (.outOfRangeAccess addr))

/-! ### The memory port (20_memory.md §2) -/

/-- `MemRead(addr, 1)` (R38): no cycle is charged and no state changes. -/
def memRead (addr : Nat) (s : State) : Prim Byte :=
  if addr < Config.memSize then .done (s.byteAt addr) s else raiseOutOfRange addr s

/-- `MemWrite(addr, 1, v)` (R39): no cycle is charged and no other byte changes. -/
def memWrite (addr : Nat) (v : Byte) (s : State) : Prim Unit :=
  if addr < Config.memSize then .done () (s.setMem (Memory.write s.mem addr v)) else raiseOutOfRange addr s

/-- `Initialise()` (R40): every byte 0x00. -/
def initialise (s : State) : State := s.setMem Memory.initialised

/-! ### Cycle-charging primitives (20_memory.md §3) -/

/-- `FetchByte()` (R42). PC wraps modulo 2^16. -/
def fetchByte (s : State) : Prim Byte :=
  (memRead s.pc.toNat s).andThen fun v t =>
    .done v ((t.setPc (t.pc + 1)).charge 1)

/-- `FetchWord()` (R43): low byte first; both advances of PC wrap modulo 2^16. -/
def fetchWord (s : State) : Prim Word :=
  (memRead s.pc.toNat s).andThen fun lo t =>
    (memRead (t.pc + 1).toNat (t.setPc (t.pc + 1))).andThen fun hi u =>
      .done (wordOf hi lo) ((u.setPc (u.pc + 1)).charge 2)

/-- `ReadByte(addr)` (R44). -/
def readByte (addr : Nat) (s : State) : Prim Byte :=
  (memRead addr s).andThen fun v t => .done v (t.charge 1)

/-- `Internal(n)` (R45): it touches no memory and no register. -/
def internal (n : Int) (s : State) : Prim Unit := .done () (s.charge n)

/-- `WriteWord(v, addr)` (R46): little-endian, low byte first; `addr + 1` is an integer sum, checked before any byte
is written. -/
def writeWord (v : Word) (addr : Nat) (s : State) : Prim Unit :=
  if addr + 1 < Config.memSize then
    (memWrite addr (lowByte v) s).andThen fun _ t =>
      (memWrite (addr + 1) (highByte v) t).andThen fun _ u => .done () (u.charge 2)
  else raiseOutOfRange (addr + 1) s

end Sys2Proof.Machine
end

