-- ==== Sys2Proof/Machine/Operands.lean ====
section
/-! DEFINITION. The addressing-mode resolver of 41_addressing_modes.md. An operand's bytes are fetched by
`fetchOperand`, the first half of every mode; the second half resolves the operand that the instruction carries. -/

namespace Sys2Proof.Machine

/-! ### Fetching the operand bytes of a format (30_encoding.md R56) -/

/-- The operand bytes that follow the opcode: none, one by FetchByte (R82, R83, R84) or two by FetchWord (R85).
A byte stands in bits 7:0 of the result. -/
def fetchOperand (f : Format) (s : State) : Prim Word :=
  match f with
  | .op => .done 0 s
  | .imm8 => (fetchByte s).andThen fun v t => .done (zext16 v) t
  | .zp8 => (fetchByte s).andThen fun zp t => .done (zext16 zp) t
  | .abs16 => fetchWord s

/-! ### Effective addresses -/

/-- Zero Page: `zext_16(zp)`, in 0x0000 to 0x00FF (R83). -/
def zeroPageAddr (zp : Byte) : Word := zext16 zp

/-- Zero Page,X: `zext_16((zp + X) mod 256)`; the sum never leaves the zero page (R84). -/
def zeroPageXAddr (zp x : Byte) : Word := zext16 (zp + x)

/-- The stack address: SP itself as an absolute address, with no page base and no offset (R86). -/
def stackAddress (s : State) : Nat := s.sp.toNat

/-! ### Values -/

/-- Immediate: the operand byte itself, with no data access (R82). -/
def resolveImmediate (imm8 : Byte) (s : State) : Prim Byte := .done imm8 s

/-- Zero Page: one read cycle (R83). -/
def resolveZeroPage (zp : Byte) (s : State) : Prim Byte := readByte (zeroPageAddr zp).toNat s

/-- Zero Page,X: one internal cycle for the index computation, then one read cycle (R84). -/
def resolveZeroPageX (zp : Byte) (s : State) : Prim Byte :=
  let ea := zeroPageXAddr zp s.x
  (internal 1 s).andThen fun _ t => readByte ea.toNat t

/-- Absolute: the target address, which is not read (R85). -/
def resolveAbsolute (addr : Word) (s : State) : Prim Word := .done addr s

end Sys2Proof.Machine
end

