-- ==== Sys2Proof/Machine/Jump.lean ====
section
/-! DEFINITION. Jump-to-Subroutine (43_jump_to_subroutine.md), from the state after its three bytes are fetched
(log 4). -/

namespace Sys2Proof.Machine

/-- The return address: PC after the target fetch, minus 1 modulo 2^16, the address of JSR's last byte (R94). -/
def returnAddress (s : State) : Word := s.pc - 1

/-- JSR Absolute (R93): write the return address at SP, set PC to the target, charge one internal cycle. SP is not
changed (R95). With SP = 0xFFFF the word write raises and PC stays past the operand. -/
def execJsr (addr : Word) (s : State) : Host.Outcome State Fault Refusal :=
  ((resolveAbsolute addr s).andThen fun target t =>
    (writeWord (returnAddress t) (stackAddress t) t).andThen fun _ u =>
      internal 1 (u.setPc target)).finish

end Sys2Proof.Machine
end

