-- ==== Sys2Proof/Machine/Flags.lean ====
section
/-! DEFINITION. The flag computation of 42_load_accumulator.md R92, the only one the spec gives, and the names the
host uses for the seven flags. -/

namespace Sys2Proof.Machine

/-- Z: 1 if and only if A is 0x00 (R92). -/
def zeroOf (v : Byte) : Bool := v == 0x00#8

/-- N: bit 7 of A (R92). -/
def negativeOf (v : Byte) : Bool := v.getLsbD 7

/-- `SetZN(A)` (R92): it reads only A and writes only Z and N. -/
def setZN (s : State) : State :=
  s.setFlags { s.flags with z := zeroOf s.a, n := negativeOf s.a }

/-- The seven flags by name (10_state.md R23). -/
inductive Flag where
  | c
  | z
  | i
  | d
  | b
  | v
  | n
  deriving DecidableEq, Repr

/-- Read one flag. -/
def Flags.get (f : Flags) (name : Flag) : Bool :=
  match name with
  | .c => f.c
  | .z => f.z
  | .i => f.i
  | .d => f.d
  | .b => f.b
  | .v => f.v
  | .n => f.n

/-- Write one flag; the others keep their values (10_state.md R23). -/
def Flags.set (f : Flags) (name : Flag) (bit : Bool) : Flags :=
  match name with
  | .c => { f with c := bit }
  | .z => { f with z := bit }
  | .i => { f with i := bit }
  | .d => { f with d := bit }
  | .b => { f with b := bit }
  | .v => { f with v := bit }
  | .n => { f with n := bit }

end Sys2Proof.Machine
end

