-- ==== Sys2Proof/Machine/Load.lean ====
section
/-! DEFINITION. The Load-Accumulator family (42_load_accumulator.md). Each meaning runs from the state after the
instruction's bytes are fetched: PC past them and their cycles charged (log 4). -/

namespace Sys2Proof.Machine

/-- The family's second half (R88): `A <- v`, then SetZN. -/
def loadAccumulator (r : Prim Byte) : Prim Unit :=
  r.andThen fun v t => .done () (setZN (t.setA v))

/-- LDA Immediate (R89). -/
def execLdaImm (imm8 : Byte) (s : State) : Host.Outcome State Fault Refusal :=
  (loadAccumulator (resolveImmediate imm8 s)).finish

/-- LDA Zero Page (R90). -/
def execLdaZp (zp8 : Byte) (s : State) : Host.Outcome State Fault Refusal :=
  (loadAccumulator (resolveZeroPage zp8 s)).finish

/-- LDA Zero Page,X (R91). -/
def execLdaZpX (zp8 : Byte) (s : State) : Host.Outcome State Fault Refusal :=
  (loadAccumulator (resolveZeroPageX zp8 s)).finish

end Sys2Proof.Machine
end

