-- ==== Sys2Proof/Machine/Fetch.lean ====
section
/-! DEFINITION. Fetching the instruction at PC (40_fetch_decode_dispatch.md R70, R71, R72), and laying out bytes in
memory where the fetch will read them. -/

namespace Sys2Proof.Machine

/-- What stands at PC: an instruction with its operand, or an unknown opcode byte. -/
inductive Fetched where
  | known (i : Instr)
  | unknown (op : Byte)
  deriving DecidableEq, Repr

/-- Phase 1, the opcode fetch (R71); phase 2, the opcode map (R72); then the operand bytes of the opcode's format,
the first primitives of its handler (R73). An unknown opcode fetches nothing more (R74). -/
def fetchInstr (s : State) : Prim Fetched :=
  (fetchByte s).andThen fun op t =>
    match decodeOpcode op with
    | none => .done (.unknown op) t
    | some o => (fetchOperand o.format t).andThen fun operand u => .done (.known (o.instr operand)) u

/-- Store bytes at consecutive addresses, wrapping modulo 2^16 as the fetch does (30_encoding.md R55). -/
def placeBytes (addr : Word) (bytes : List Byte) (mem : Memory) : Memory :=
  match bytes with
  | [] => mem
  | b :: rest => placeBytes (addr + 1) rest (Memory.write mem addr.toNat b)

end Sys2Proof.Machine
end

