-- ==== Sys2Proof/Machine/Unknown.lean ====
section
/-! DEFINITION. The unknown-opcode handler (40_fetch_decode_dispatch.md R74). An unknown opcode is no instruction
(30_encoding.md R56, R63), so it is no arm of exec; step calls this handler (log 5). -/

namespace Sys2Proof.Machine

/-- Report the byte `op` at `pc0` and go on: no primitive, no register write, no flag write (R74, R75). -/
def runUnknown (pc0 : Word) (op : Byte) (s : State) : Host.Outcome State Fault Refusal :=
  .next (s.appendLog (.unknown pc0 op))

end Sys2Proof.Machine
end

