-- ==== Sys2Proof/Machine/Step.lean ====
section
/-! DEFINITION. One step of the machine: `Step()` of 40_fetch_decode_dispatch.md R70. -/

namespace Sys2Proof.Machine

/-- One instruction, run to completion unless a fault is raised (R70). A machine whose `fault` is set runs nothing
until reset (R68, 60_exceptions.md R100): the step stops with that fault (log 3). The budget is charged but not
tested here: the loop of `execute` tests it between steps (R78, log 2). -/
def step (s : State) : Host.Outcome State Fault Refusal :=
  match s.fault with
  | some f => .fault f
  | none =>
    match fetchInstr s with
    | .done (.known i) t => exec i t
    | .done (.unknown op) t => runUnknown s.pc op t
    | .raised t => .next t

/-- The host's load of one instruction at PC (70_reset_and_hazards.md R117, log 7): the bytes of an opcode-table
word, zero beyond `nbits`, stored where the next step fetches. -/
def State.withFetchWord (s : State) (nbits w : Nat) : State :=
  s.setMem (placeBytes s.pc (tableBytes nbits w) s.mem)

end Sys2Proof.Machine
end

