-- ==== Sys2Proof/Machine/HostOps.lean ====
section
/-! DEFINITION. The host operations of 00_scope.md R10 to R13: reset, execute with its loop, and the host's reads and
writes of registers, flags and memory. They act between runs, never inside one (R14). -/

namespace Sys2Proof.Machine

/-- `reset()` (70_reset_and_hazards.md R113): every register, flag and memory byte 0 but PC and SP, the log empty,
no fault. It does not touch the budget (R116). -/
def hostReset (s : State) : State :=
  initialise { s with
    pc := Config.resetPc, sp := Config.resetSp, a := 0x00#8, x := 0x00#8, y := 0x00#8,
    flags := Flags.reset, log := [], fault := none }

/-- The `while` of 40_fetch_decode_dispatch.md R68, at most `fuel` times round: whole instructions while the budget
is positive and no fault is set. -/
def executeLoop (fuel : Nat) (s : State) : State :=
  match fuel with
  | 0 => s
  | fuel' + 1 =>
    if 0 < s.budget ∧ s.fault = none then
      match step s with
      | .next t => executeLoop fuel' t
      | .fault _ => s
      | .refused _ => s
    else s

/-- `execute(cycleBudget)` (R68): the state when the loop ends, and the cycles consumed (10_state.md R28). Every
step charges at least one cycle, so the budget itself bounds the number of steps (R77). -/
def execute (cycleBudget : Int) (s : State) : State × Int :=
  let t := executeLoop cycleBudget.toNat (s.setBudget cycleBudget)
  (t, cycleBudget - t.budget)

/-- One write of the host between operations (00_scope.md R13): PC, SP, A, X, Y, one flag or one memory byte.
The budget, the log and the fault are not among them (log 9). -/
inductive HostWrite where
  | pc (v : Word)
  | sp (v : Word)
  | a (v : Byte)
  | x (v : Byte)
  | y (v : Byte)
  | flag (name : Flag) (bit : Bool)
  | byte (addr : Word) (v : Byte)
  deriving DecidableEq, Repr

/-- The state after a write of the host (R13). -/
def hostWrite (w : HostWrite) (s : State) : State :=
  match w with
  | .pc v => s.setPc v
  | .sp v => s.setSp v
  | .a v => s.setA v
  | .x v => s.setX v
  | .y v => s.setY v
  | .flag name bit => s.setFlags (s.flags.set name bit)
  | .byte addr v => s.setMem (Memory.write s.mem addr.toNat v)

/-- The host's read of one memory byte (R13); registers, flags and the log are read as the fields of State. -/
def hostReadByte (addr : Word) (s : State) : Byte := s.byteAt addr.toNat

/-- Several writes of the host, in order. -/
def hostWrites (ws : List HostWrite) (s : State) : State := ws.foldl (fun t w => hostWrite w t) s

end Sys2Proof.Machine
end

