-- ==== Sys2Proof/Safety.lean ====
section
/-! DEFINITION. What a safe run is, the invariant of the machine, the states a session can be in, and the cost of a
step, in the terms the statements use. -/

namespace Sys2Proof

open Machine

/-- A run that stands here has met no fault: the normal end of 40_fetch_decode_dispatch.md R69. -/
def NotFaulted (s : State) : Prop := s.fault = none

/-- No JSR can raise from here (60_exceptions.md R101). -/
def StackSlotExists (s : State) : Prop := s.sp ≠ 0xFFFF#16

/-- The invariant: the memory is in its canonical form, and a recorded fault is the one of 60_exceptions.md R97. -/
def StateInv (s : State) : Prop :=
  Memory.wf s.mem ∧ (s.fault = none ∨ s.fault = some (.outOfRangeAccess 0x10000))

/-- The states of a session between operations of the host: the state after the first reset, and what host writes,
executes and further resets make of it (10_state.md R32, 70_reset_and_hazards.md R117, R119). -/
inductive Session : State → Prop where
  | start : Session State.reset
  | reset {s : State} : Session s → Session (hostReset s)
  | write {s : State} (w : HostWrite) : Session s → Session (hostWrite w s)
  | execute {s : State} (n : Int) : Session s → Session (execute n s).1

/-- The total of 70_reset_and_hazards.md R124 for the opcode byte `op`. -/
def instrCost (op : Byte) : Int :=
  if op = 0xA9#8 then 2 else if op = 0xA5#8 then 3 else if op = 0xB5#8 then 4 else if op = 0x20#8 then 6 else 1

/-- The opcode byte the next step fetches. -/
def opcodeAt (s : State) : Byte := s.byteAt s.pc.toNat

/-- The bytes the next step can fetch: the opcode and two operand bytes, byte `k` at `(PC0 + k) mod 2^16`
(30_encoding.md R55). -/
def codeBytes (s : State) : List Byte :=
  [s.byteAt s.pc.toNat, s.byteAt (s.pc + 1).toNat, s.byteAt (s.pc + 2).toNat]

/-- The state in which an instruction of `n` bytes runs: PC past them, one cycle charged for each. -/
def pastInstr (n : Nat) (s : State) : State :=
  { s with pc := s.pc + BitVec.ofNat 16 n, budget := s.budget - n }

end Sys2Proof
end

