-- ==== Sys2Proof/WellFormed.lean ====
section
/-! DEFINITION. When an instruction, and when a list of bytes, is well formed. The fields of Instr are bit vectors
of the widths 30_encoding.md R56 gives them, so every term of Instr passes its check; a list of bytes can fail
each of its three checks. -/

namespace Sys2Proof

/-- Each operand fits the operand bytes of its format (R56): one byte for imm8 and zp8, two for abs16. -/
def Instr.wellFormed : Instr → Bool
  | .ldaImm imm8 => decide (imm8.toNat < 2 ^ 8)
  | .ldaZp zp8 => decide (zp8.toNat < 2 ^ 8)
  | .ldaZpX zp8 => decide (zp8.toNat < 2 ^ 8)
  | .jsr addr => decide (addr.toNat < 2 ^ 16)

/-- A list of bytes is the encoding of exactly one instruction: there is an opcode byte, the opcode map has it
(R60), and the list is as long as that opcode says (R62). -/
def wellFormedBytes (bytes : List Byte) : Bool :=
  match bytes with
  | [] => false
  | op :: rest => (decodeOpcode op).isSome && rest.length + 1 == lengthOf op

end Sys2Proof
end

