-- ==== Sys2Proof/Certificates/Slice0/Obligations.lean ====
section
/-! DEFINITION. The statements for the provers, each a proposition about the machine that a rule of spec/ makes.
Numbers and slices of bits are written as the spec writes them (00_scope.md R7), not through the model's helpers,
wherever that is possible. -/

open Sys2Proof Sys2Proof.Machine

/-! ### Encoding (30_encoding.md) -/

/-- Decoding what the encoder writes gives the instruction back, with every operand, and leaves the bytes after it. -/
def Obligations.DecodeEncodeRoundTrip : Prop :=
  ∀ (i : Instr) (rest : List Byte), decode (encode i ++ rest) = .ok (i, rest)

/-- Each sequence of bytes has one meaning: what decodes to an instruction is that instruction's encoding. -/
def Obligations.DecodedBytesReencode : Prop :=
  ∀ (bytes : List Byte) (i : Instr) (rest : List Byte), decode bytes = .ok (i, rest) → encode i ++ rest = bytes

/-- The well-formed lists of bytes are exactly the encodings of instructions. -/
def Obligations.WellFormedBytesAreEncodings : Prop :=
  ∀ bytes : List Byte, wellFormedBytes bytes = true ↔ ∃ i, bytes = encode i

/-- R62: the opcode byte alone fixes the length, and the decoder takes exactly that many bytes. -/
def Obligations.OpcodeFixesInstructionLength : Prop :=
  (∀ op : Byte, lengthOf op =
    if op = 0x20#8 then 3 else if op = 0xA9#8 ∨ op = 0xA5#8 ∨ op = 0xB5#8 then 2 else 1) ∧
  ∀ (op : Byte) (after : List Byte) (i : Instr) (rest : List Byte), decode (op :: after) = .ok (i, rest) →
    rest = (op :: after).drop (lengthOf op) ∧ lengthOf op ≤ (op :: after).length

/-- R61, R63: the map compares the whole byte and has the four entries of R60; the decoder rejects every other byte
by name, whatever follows it. -/
def Obligations.OpcodeMapHasFourEntries : Prop :=
  ∀ (op : Byte) (after : List Byte),
    (decodeOpcode op = if op = 0xA9#8 then some .ldaImm else if op = 0xA5#8 then some .ldaZp
      else if op = 0xB5#8 then some .ldaZpX else if op = 0x20#8 then some .jsr else none) ∧
    (op ≠ 0xA9#8 ∧ op ≠ 0xA5#8 ∧ op ≠ 0xB5#8 ∧ op ≠ 0x20#8 → decode (op :: after) = .error (.unknownOpcode op))

/-- Words written out from R56 and R60 decode to the instructions they stand for. -/
def Obligations.WrittenOutWordsDecode : Prop :=
  decode [0b10101001#8, 0b10000100#8] = .ok (.ldaImm 0x84#8, []) ∧
  decode [0b10100101#8, 0b01000010#8] = .ok (.ldaZp 0x42#8, []) ∧
  decode [0b10110101#8, 0b10000000#8] = .ok (.ldaZpX 0x80#8, []) ∧
  decode [0b00100000#8, 0b00110100#8, 0b00010010#8] = .ok (.jsr 0x1234#16, [])

/-! ### Memory (20_memory.md) -/

/-- R38. -/
def Obligations.MemReadReturnsByteOrFaults : Prop :=
  ∀ (addr : Nat) (s : State),
    (addr ≤ 65535 → memRead addr s = .done (s.byteAt addr) s) ∧
    (65535 < addr → memRead addr s = .raised { s with fault := some (.outOfRangeAccess addr) })

/-- R39: the byte is stored, every other byte keeps its value, nothing else changes. -/
def Obligations.MemWriteStoresOneByteOrFaults : Prop :=
  ∀ (addr : Nat) (v : Byte) (s : State),
    (addr ≤ 65535 → ∃ t, memWrite addr v s = .done () t ∧ t.byteAt addr = v ∧
      (∀ b, b ≠ addr → t.byteAt b = s.byteAt b) ∧ t = { s with mem := t.mem }) ∧
    (65535 < addr → memWrite addr v s = .raised { s with fault := some (.outOfRangeAccess addr) })

/-- Two canonical memories that read the same at every address are the same list, so that equal memories are equal
data (log 8). The form is the model's own. -/
def Obligations.CanonicalMemoriesWithEqualReadsAreEqual : Prop :=
  ∀ m m' : Memory, Memory.wf m → Memory.wf m' → (∀ addr, addr ≤ 65535 → Memory.read m addr = Memory.read m' addr) →
    m = m'

/-- R40: every byte becomes 0x00, nothing else changes, and reset calls it. -/
def Obligations.InitialiseZeroesEveryByte : Prop :=
  ∀ s : State, (∀ addr, (initialise s).byteAt addr = 0x00#8) ∧ initialise s = { s with mem := (initialise s).mem } ∧
    (∀ addr, (hostReset s).byteAt addr = 0x00#8)

/-- R43: the low byte at PC, the high byte at PC + 1, PC advanced by 2 modulo 2^16 (so PC = 0xFFFF takes its high
byte from 0x0000), 2 cycles, and no raise. -/
def Obligations.FetchWordReadsLittleEndian : Prop :=
  ∀ s : State, ∃ v, fetchWord s = .done v { s with pc := s.pc + 2, budget := s.budget - 2 } ∧
    v.toNat = (s.byteAt ((s.pc.toNat + 1) % 65536)).toNat * 256 + (s.byteAt s.pc.toNat).toNat

/-- FetchByte, ReadByte and Internal: the value, the advance of PC and the cycle each charges; the addresses of the
zero-page modes stay in [0x0000, 0x00FF], so those reads never raise. -/
def Obligations.BytePrimitivesChargeTheirCycles : Prop :=
  ∀ s : State,
    fetchByte s = .done (s.byteAt s.pc.toNat) { s with pc := s.pc + 1, budget := s.budget - 1 } ∧
    (∀ addr, addr ≤ 65535 → readByte addr s = .done (s.byteAt addr) { s with budget := s.budget - 1 }) ∧
    (∀ addr, 65535 < addr → readByte addr s = .raised { s with fault := some (.outOfRangeAccess addr) }) ∧
    (∀ n, internal n s = .done () { s with budget := s.budget - n }) ∧
    ∀ zp : Byte, (zeroPageAddr zp).toNat = zp.toNat ∧ (zeroPageXAddr zp s.x).toNat = (zp.toNat + s.x.toNat) % 256

/-- R46: two bytes, little-endian, 2 cycles; where `addr + 1` does not exist, the fault and neither byte. -/
def Obligations.WriteWordStoresLittleEndianOrFaults : Prop :=
  ∀ (v : Word) (addr : Nat) (s : State),
    (addr + 1 ≤ 65535 → ∃ t, writeWord v addr s = .done () t ∧
      (t.byteAt addr).toNat = v.toNat % 256 ∧ (t.byteAt (addr + 1)).toNat = v.toNat / 256 ∧
      (∀ b, b ≠ addr → b ≠ addr + 1 → t.byteAt b = s.byteAt b) ∧
      t = { s with mem := t.mem, budget := s.budget - 2 }) ∧
    (65535 < addr + 1 → writeWord v addr s = .raised { s with fault := some (.outOfRangeAccess (addr + 1)) })

/-! ### What exec does, from the state after the instruction's bytes are fetched (log 4) -/

/-- The Load-Accumulator family answers a next state for every state and operand: A takes the resolved value, Z and
N follow it, and the budget pays for the resolution (R88, R92 and the modes R82 to R84). -/
def Obligations.LoadsAnswerTheirResult : Prop :=
  ∀ (b : Byte) (s : State),
    let loaded (v : Byte) (cycles : Int) : State :=
      { s with a := v, flags := { s.flags with z := decide (v = 0x00#8), n := decide (128 ≤ v.toNat) },
               budget := s.budget - cycles }
    exec (.ldaImm b) s = .next (loaded b 0) ∧
    exec (.ldaZp b) s = .next (loaded (s.byteAt b.toNat) 1) ∧
    exec (.ldaZpX b) s = .next (loaded (s.byteAt ((b.toNat + s.x.toNat) % 256)) 2)

/-- JSR completes for every target wherever its two stack bytes exist: PC is the target, PC - 1 stands at SP and
SP + 1 with the low byte at SP, 3 more cycles are charged, nothing else changes. -/
def Obligations.JsrAnswersItsResult : Prop :=
  ∀ (target : Word) (s : State), s.sp ≠ 0xFFFF#16 →
    ∃ t, exec (.jsr target) s = .next t ∧
      (t.byteAt s.sp.toNat).toNat = (s.pc - 1).toNat % 256 ∧
      (t.byteAt (s.sp.toNat + 1)).toNat = (s.pc - 1).toNat / 256 ∧
      (∀ b, b ≠ s.sp.toNat → b ≠ s.sp.toNat + 1 → t.byteAt b = s.byteAt b) ∧
      t = { s with pc := target, budget := s.budget - 3, mem := t.mem }

/-- JSR with SP = 0xFFFF raises: the fault is recorded and nothing else changes after the fetch. -/
def Obligations.JsrAtTopOfMemoryFaults : Prop :=
  ∀ (target : Word) (s : State), s.sp = 0xFFFF#16 →
    exec (.jsr target) s = .next { s with fault := some (.outOfRangeAccess 0x10000) }

/-- Frame of the register-only forms: SP, X, Y, PC, C, I, D, B, V, the log, the fault and every byte of memory. -/
def Obligations.LoadsFrame : Prop :=
  ∀ (b : Byte) (i : Instr) (s t : State), i = .ldaImm b ∨ i = .ldaZp b ∨ i = .ldaZpX b → exec i s = .next t →
    t.sp = s.sp ∧ t.x = s.x ∧ t.y = s.y ∧ t.pc = s.pc ∧ t.flags.c = s.flags.c ∧ t.flags.i = s.flags.i ∧
    t.flags.d = s.flags.d ∧ t.flags.b = s.flags.b ∧ t.flags.v = s.flags.v ∧ t.log = s.log ∧ t.fault = s.fault ∧
    ∀ addr, t.byteAt addr = s.byteAt addr

/-- Frame of the storing form: every register but PC, every flag, the log, and every byte of memory outside the
two at the stack address, which is SP itself; where SP + 1 does not exist, every byte of memory. -/
def Obligations.JsrFrame : Prop :=
  ∀ (target : Word) (s t : State), exec (.jsr target) s = .next t →
    t.a = s.a ∧ t.x = s.x ∧ t.y = s.y ∧ t.sp = s.sp ∧ t.flags = s.flags ∧ t.log = s.log ∧
    (s.sp ≠ 0xFFFF#16 → t.fault = s.fault) ∧
    (∀ addr b, stackAddress s = addr → b ≠ addr → b ≠ addr + 1 → t.byteAt b = s.byteAt b) ∧
    (s.sp = 0xFFFF#16 → ∀ b, t.byteAt b = s.byteAt b)

/-! ### What a step does -/

/-- Where the bytes at PC decode to an instruction, a step is exec of it past its bytes: PC advanced by its length
modulo 2^16 and one cycle charged for each byte (R70 to R73, log 4). -/
def Obligations.StepRunsTheDecodedInstruction : Prop :=
  ∀ (s : State) (i : Instr) (rest : List Byte), s.fault = none → decode (codeBytes s) = .ok (i, rest) →
    step s = exec i { s with pc := s.pc + BitVec.ofNat 16 (encode i).length, budget := s.budget - (encode i).length }

/-- A step from a faulted state stops with the recorded fault: the core runs nothing until reset. The outcome is the
model's choice (log 3). -/
def Obligations.FaultedStepStops : Prop :=
  ∀ (s : State) (f : Fault), s.fault = some f → step s = .fault f

/-- From every state without a fault a step answers a next state, whatever byte stands at PC. -/
def Obligations.EveryByteHasAStep : Prop :=
  ∀ s : State, s.fault = none → ∃ t, step s = .next t

/-- R89, the whole instruction; and an `execute` of its cost runs just it. -/
def Obligations.StepLdaImmediate : Prop :=
  ∀ s : State, s.fault = none → s.byteAt s.pc.toNat = 0xA9#8 →
    let v := s.byteAt ((s.pc.toNat + 1) % 65536)
    let t : State := { s with
      a := v, flags := { s.flags with z := decide (v = 0x00#8), n := decide (128 ≤ v.toNat) },
      pc := s.pc + 2, budget := s.budget - 2 }
    step s = .next t ∧ execute 2 s = ({ t with budget := 0 }, 2)

/-- R90, the whole instruction; and an `execute` of its cost runs just it. -/
def Obligations.StepLdaZeroPage : Prop :=
  ∀ s : State, s.fault = none → s.byteAt s.pc.toNat = 0xA5#8 →
    let v := s.byteAt (s.byteAt ((s.pc.toNat + 1) % 65536)).toNat
    let t : State := { s with
      a := v, flags := { s.flags with z := decide (v = 0x00#8), n := decide (128 ≤ v.toNat) },
      pc := s.pc + 2, budget := s.budget - 3 }
    step s = .next t ∧ execute 3 s = ({ t with budget := 0 }, 3)

/-- R91, the whole instruction: the index sum wraps inside the zero page; and an `execute` of its cost runs just it. -/
def Obligations.StepLdaZeroPageX : Prop :=
  ∀ s : State, s.fault = none → s.byteAt s.pc.toNat = 0xB5#8 →
    let v := s.byteAt (((s.byteAt ((s.pc.toNat + 1) % 65536)).toNat + s.x.toNat) % 256)
    let t : State := { s with
      a := v, flags := { s.flags with z := decide (v = 0x00#8), n := decide (128 ≤ v.toNat) },
      pc := s.pc + 2, budget := s.budget - 4 }
    step s = .next t ∧ execute 4 s = ({ t with budget := 0 }, 4)

/-- R93, the whole instruction with its exception: the target, the return address PC0 + 2 of R94, the cycles, and
with SP = 0xFFFF the fault after the target fetch, which stops the loop. -/
def Obligations.StepJsr : Prop :=
  ∀ s : State, s.fault = none → s.byteAt s.pc.toNat = 0x20#8 →
    (s.sp ≠ 0xFFFF#16 → ∃ t, step s = .next t ∧ execute 6 s = ({ t with budget := 0 }, 6) ∧
      t.pc.toNat = (s.byteAt ((s.pc.toNat + 2) % 65536)).toNat * 256 + (s.byteAt ((s.pc.toNat + 1) % 65536)).toNat ∧
      (t.byteAt s.sp.toNat).toNat = (s.pc.toNat + 2) % 65536 % 256 ∧
      (t.byteAt (s.sp.toNat + 1)).toNat = (s.pc.toNat + 2) % 65536 / 256 ∧
      (∀ b, b ≠ s.sp.toNat → b ≠ s.sp.toNat + 1 → t.byteAt b = s.byteAt b) ∧
      t = { s with pc := t.pc, budget := s.budget - 6, mem := t.mem }) ∧
    (s.sp = 0xFFFF#16 →
      let t : State := { s with
        pc := s.pc + 3, budget := s.budget - 3, fault := some (.outOfRangeAccess 0x10000) }
      step s = .next t ∧ ∀ n, 0 < n → execute n s = ({ t with budget := n - 3 }, 3))

/-- R74: one record, PC past that one byte, one cycle, and nothing else. -/
def Obligations.StepUnknownOpcode : Prop :=
  ∀ s : State, s.fault = none →
    s.byteAt s.pc.toNat ≠ 0xA9#8 → s.byteAt s.pc.toNat ≠ 0xA5#8 → s.byteAt s.pc.toNat ≠ 0xB5#8 →
    s.byteAt s.pc.toNat ≠ 0x20#8 →
    step s = .next { s with
      pc := s.pc + 1, budget := s.budget - 1, log := s.log ++ [.unknown s.pc (s.byteAt s.pc.toNat)] }

/-- R75: an unknown opcode changes no register but PC, no flag and no byte of memory, raises nothing, is reported,
and the next byte fetched is the one after it. -/
def Obligations.UnknownOpcodeFrame : Prop :=
  ∀ s t : State, decodeOpcode (s.byteAt s.pc.toNat) = none → step s = .next t →
    t.a = s.a ∧ t.x = s.x ∧ t.y = s.y ∧ t.sp = s.sp ∧ t.flags = s.flags ∧ t.fault = s.fault ∧
    (∀ addr, t.byteAt addr = s.byteAt addr) ∧ t.pc.toNat = (s.pc.toNat + 1) % 65536 ∧
    t.log = s.log ++ [.unknown s.pc (s.byteAt s.pc.toNat)]

/-! ### Rules of the whole machine -/

/-- SP, X, Y and the flags C, I, D, B, V are written by no step: only reset and the host write them. -/
def Obligations.NoStepWritesHostOnlyState : Prop :=
  ∀ s t : State, step s = .next t →
    t.sp = s.sp ∧ t.x = s.x ∧ t.y = s.y ∧ t.flags.c = s.flags.c ∧ t.flags.i = s.flags.i ∧
    t.flags.d = s.flags.d ∧ t.flags.b = s.flags.b ∧ t.flags.v = s.flags.v

/-- R92: after a Load-Accumulator instruction Z and N are what its A says, never both 1, and no other flag changed;
no other step changes A or a flag. -/
def Obligations.ZeroAndNegativeFollowLoads : Prop :=
  ∀ s t : State, step s = .next t →
    ((opcodeAt s = 0xA9#8 ∨ opcodeAt s = 0xA5#8 ∨ opcodeAt s = 0xB5#8) →
      (t.flags.z = true ↔ t.a = 0x00#8) ∧ (t.flags.n = true ↔ 128 ≤ t.a.toNat) ∧
      ¬ (t.flags.z = true ∧ t.flags.n = true) ∧
      t.flags = { s.flags with z := t.flags.z, n := t.flags.n }) ∧
    (opcodeAt s ≠ 0xA9#8 → opcodeAt s ≠ 0xA5#8 → opcodeAt s ≠ 0xB5#8 → t.a = s.a ∧ t.flags = s.flags)

/-- Memory changes only under JSR, and there only at SP and SP + 1. -/
def Obligations.OnlyJsrWritesMemory : Prop :=
  ∀ s t : State, step s = .next t →
    (opcodeAt s ≠ 0x20#8 → t.mem = s.mem) ∧
    ∀ b, b ≠ s.sp.toNat → b ≠ s.sp.toNat + 1 → t.byteAt b = s.byteAt b

/-- R124: every instruction that completes charges exactly its total: 2, 3, 4, 6, and 1 for an unknown opcode. -/
def Obligations.StepChargesItsCost : Prop :=
  ∀ s t : State, step s = .next t → t.fault = none → t.budget = s.budget -
    (if opcodeAt s = 0xA9#8 then 2 else if opcodeAt s = 0xA5#8 then 3 else if opcodeAt s = 0xB5#8 then 4
      else if opcodeAt s = 0x20#8 then 6 else 1)

/-- R101: a step records a fault exactly where it is a JSR with SP = 0xFFFF, and then the address is 0x10000; the
reset value of SP is not that one and no step writes SP. -/
def Obligations.OnlyJsrAtTopOfMemoryFaults : Prop :=
  (∀ s t : State, step s = .next t →
    (t.fault ≠ none ↔ opcodeAt s = 0x20#8 ∧ s.sp = 0xFFFF#16) ∧
    (t.fault ≠ none → t.fault = some (.outOfRangeAccess 0x10000)) ∧ t.sp = s.sp) ∧
  ∀ s : State, (hostReset s).sp = 0x0100#16

/-- R102: no step both reports an unknown opcode and records a fault; and the log grows by one record under an
unknown opcode and by nothing otherwise. -/
def Obligations.NoStepReportsAndFaults : Prop :=
  ∀ s t : State, step s = .next t →
    ¬ (t.log ≠ s.log ∧ t.fault ≠ none) ∧
    t.log = s.log ++ (if decodeOpcode (opcodeAt s) = none then [.unknown s.pc (opcodeAt s)] else [])

/-- From a state without a fault whose stack bytes exist, a run of any number of steps meets no fault (R101). -/
def Obligations.NoFaultWhileStackSlotExists : Prop :=
  ∀ (k : Nat) (s : State), NotFaulted s → StackSlotExists s →
    ∃ t, Host.Core.run core k s = .next t ∧ NotFaulted t ∧ StackSlotExists t

/-- R78: no step reads the budget: with any other budget it does the same and charges the same. -/
def Obligations.StepIgnoresTheBudget : Prop :=
  ∀ (s t : State) (d : Int), step s = .next t →
    step { s with budget := s.budget + d } = .next { t with budget := t.budget + d }

/-- No step reads the log: with other records in front it does the same (10_state.md R29). -/
def Obligations.StepIgnoresTheLog : Prop :=
  ∀ (s t : State) (older : List LogRecord), step s = .next t →
    step { s with log := older ++ s.log } = .next { t with log := older ++ t.log }

/-- No step reads Y or a flag: with any others, every other field comes out the same, Y keeps what it was given, and
each flag is the one the load wrote or the one that was given. -/
def Obligations.StepIgnoresFlagsAndY : Prop :=
  ∀ (s t : State) (f : Flags) (y' : Byte), step s = .next t →
    ∃ f', step { s with flags := f, y := y' } = .next { t with flags := f', y := y' } ∧
      ((opcodeAt s = 0xA9#8 ∨ opcodeAt s = 0xA5#8 ∨ opcodeAt s = 0xB5#8) →
        f' = { f with z := t.flags.z, n := t.flags.n }) ∧
      (opcodeAt s ≠ 0xA9#8 → opcodeAt s ≠ 0xA5#8 → opcodeAt s ≠ 0xB5#8 → f' = f)

/-- R53: a fetch sees every earlier write: a JSR whose target is its own return slot makes the next opcode the low
byte of the return address. -/
def Obligations.FetchSeesTheReturnAddressWritten : Prop :=
  ∀ s t : State, opcodeAt s = 0x20#8 → s.sp ≠ 0xFFFF#16 → step s = .next t → t.pc = s.sp →
    (opcodeAt t).toNat = (s.pc.toNat + 2) % 65536 % 256

/-- R95: JSR does not change SP, and a second JSR overwrites the return address of the first. -/
def Obligations.SecondJsrOverwritesTheReturnAddress : Prop :=
  ∀ s t u : State, opcodeAt s = 0x20#8 → step s = .next t → opcodeAt t = 0x20#8 → step t = .next u →
    t.sp = s.sp ∧ u.sp = s.sp ∧ (s.sp ≠ 0xFFFF#16 →
      (u.byteAt s.sp.toNat).toNat = (t.pc.toNat + 2) % 65536 % 256 ∧
      (u.byteAt (s.sp.toNat + 1)).toNat = (t.pc.toNat + 2) % 65536 / 256)

/-- Every step keeps the invariant: the memory stays in its canonical form and a recorded fault is the one of R97. -/
def Obligations.StepKeepsStateInv : Prop :=
  ∀ s t : State, StateInv s → step s = .next t → StateInv t

/-- The invariant holds at reset. -/
def Obligations.ResetMeetsStateInv : Prop := StateInv State.reset

/-- Every state of a session meets the invariant: after resets, host writes and executes in any order. -/
def Obligations.SessionMeetsStateInv : Prop :=
  ∀ s : State, Session s → StateInv s

/-! ### Reset and the host (00_scope.md, 70_reset_and_hazards.md) -/

/-- R113, R114: what reset leaves, from any state. That the budget keeps its value is R116. -/
def Obligations.ResetSetsEveryValue : Prop :=
  ∀ s : State,
    (hostReset s).pc = 0xFFFC#16 ∧ (hostReset s).sp = 0x0100#16 ∧ (hostReset s).a = 0#8 ∧ (hostReset s).x = 0#8 ∧
    (hostReset s).y = 0#8 ∧ (hostReset s).flags.c = false ∧ (hostReset s).flags.z = false ∧
    (hostReset s).flags.i = false ∧ (hostReset s).flags.d = false ∧ (hostReset s).flags.b = false ∧
    (hostReset s).flags.v = false ∧ (hostReset s).flags.n = false ∧ (∀ addr, (hostReset s).byteAt addr = 0x00#8) ∧
    (hostReset s).log = [] ∧ (hostReset s).fault = none ∧ (hostReset s).budget = s.budget ∧
    { hostReset s with budget := State.reset.budget } = State.reset

/-- R115 and the worked example W5: after reset, a JSR written at 0xFFFC is the first instruction, with the target
in the two bytes behind it; reset reads no vector. -/
def Obligations.FirstInstructionAfterResetIsAtFFFC : Prop :=
  ∀ (s : State) (lo hi : Byte),
    ∃ t, step (hostWrites [.byte 0xFFFC#16 0x20#8, .byte 0xFFFD#16 lo, .byte 0xFFFE#16 hi] (hostReset s)) = .next t ∧
      t.pc.toNat = hi.toNat * 256 + lo.toNat ∧ t.byteAt 0x0100 = 0xFE#8 ∧ t.byteAt 0x0101 = 0xFF#8 ∧
      t.sp = 0x0100#16 ∧ t.budget = s.budget - 6

/-- A host write changes the one register, flag or byte it names and nothing else (10_state.md R20, R23). -/
def Obligations.HostWritesChangeOneThing : Prop :=
  ∀ (s : State) (v : Byte) (w : Word) (name other : Flag) (bit : Bool) (addr : Nat),
    hostWrite (.pc w) s = { s with pc := w } ∧ hostWrite (.sp w) s = { s with sp := w } ∧
    hostWrite (.a v) s = { s with a := v } ∧ hostWrite (.x v) s = { s with x := v } ∧
    hostWrite (.y v) s = { s with y := v } ∧
    hostWrite (.flag name bit) s = { s with flags := (hostWrite (.flag name bit) s).flags } ∧
    ((hostWrite (.flag name bit) s).flags.get other = if other = name then bit else s.flags.get other) ∧
    hostWrite (.byte w v) s = { s with mem := (hostWrite (.byte w v) s).mem } ∧
    ((hostWrite (.byte w v) s).byteAt addr = if addr = w.toNat then v else s.byteAt addr)

/-- R28: the value `execute` returns is the requested budget less the budget left. -/
def Obligations.ExecuteReturnsCyclesConsumed : Prop :=
  ∀ (n : Int) (s : State), (execute n s).2 = n - (execute n s).1.budget ∧
    (0 < n → (execute n s).1.fault = none → n ≤ (execute n s).2) ∧ (n ≤ 0 → (execute n s).2 = 0)

/-- R68: `execute` runs nothing and returns 0 where the budget is not positive or a fault is set; otherwise it runs
one step and goes on with the budget that step leaves. -/
def Obligations.ExecuteIsTheWhileLoop : Prop :=
  ∀ (n : Int) (s : State),
    (n ≤ 0 → execute n s = ({ s with budget := n }, 0)) ∧
    (s.fault ≠ none → (execute n s).2 = 0 ∧ (execute n s).1 = { s with budget := (execute n s).1.budget }) ∧
    (0 < n → s.fault = none → ∃ t, step { s with budget := n } = .next t ∧
      execute n s = ((execute t.budget t).1, n - t.budget + (execute t.budget t).2))

/-- R77, R123: every step charges at least one cycle, so `execute` is a run of at most `max(n, 0)` steps; it ends
with the budget spent or a fault set, and before each of its steps neither held: the shortest run that spends the
budget. -/
def Obligations.ExecuteIsTheShortestRun : Prop :=
  (∀ s t : State, step s = .next t → t.budget + 1 ≤ s.budget) ∧
  ∀ (n : Int) (s : State), s.fault = none → ∃ k : Nat, (k : Int) ≤ max n 0 ∧
    Host.Core.run core k ({ s with budget := n } : State) = .next (execute n s).1 ∧
    ((execute n s).1.budget ≤ 0 ∨ (execute n s).1.fault ≠ none) ∧
    ∀ j < k, ∃ u : State, Host.Core.run core j ({ s with budget := n } : State) = .next u ∧
      0 < u.budget ∧ u.fault = none

/-- R79: without a fault, the last instruction takes the budget to between 1 minus its cost and 0, so at most 5
cycles are consumed beyond the request. -/
def Obligations.ExecuteOvershootsByOneInstruction : Prop :=
  ∀ (n : Int) (s : State), 0 < n → (execute n s).1.fault = none →
    (∃ u : State, 0 < u.budget ∧ step u = .next (execute n s).1 ∧
      1 - instrCost (opcodeAt u) ≤ (execute n s).1.budget) ∧
    -5 ≤ (execute n s).1.budget ∧ (execute n s).1.budget ≤ 0 ∧
    n ≤ (execute n s).2 ∧ (execute n s).2 ≤ n + 5

/-- R119's continuation: a call with a larger budget is the call with the smaller one followed by a call with what
is left. Where the first call ends with a fault, the budget that the second leaves is the model's reading (log 6). -/
def Obligations.ExecuteSplitsIntoConsecutiveCalls : Prop :=
  ∀ (m n : Int) (s : State), m ≤ n →
    execute n s = ((execute (n - (execute m s).2) (execute m s).1).1,
      (execute m s).2 + (execute (n - (execute m s).2) (execute m s).1).2)

/-- R111: `execute(1)` runs exactly one instruction, whatever its cost. -/
def Obligations.ExecuteOneRunsOneInstruction : Prop :=
  ∀ s : State, s.fault = none → ∃ t, step { s with budget := 1 } = .next t ∧ execute 1 s = (t, 1 - t.budget)

/-- A fault stays set through executes and host writes, and reset clears it (R30, R100). -/
def Obligations.FaultStaysUntilReset : Prop :=
  ∀ (s : State) (f : Fault) (n : Int) (w : HostWrite), s.fault = some f →
    (execute n s).1.fault = some f ∧ (hostWrite w s).fault = some f ∧ (hostReset s).fault = none

/-- A loaded opcode-table word runs: storing the word where the step fetches makes the step run the instruction the
decoder reads from that word. The load is the model's own operation (log 7). -/
def Obligations.LoadedWordRuns : Prop :=
  ∀ (s : State) (nbits w : Nat) (i : Instr), s.fault = none → decodeTableWord nbits w = some i →
    step (s.withFetchWord nbits w) = exec i (pastInstr (encode i).length (s.withFetchWord nbits w))
end

