-- ==== Sys2Proof/Laws/Decode.lean ====
section
/-! SUPPORT. The small lemmas of the byte-order helpers, the opcode map and the decoder. -/

namespace Sys2Proof

/-! ### Byte order -/

@[simp] theorem lowByte_zext16 (b : Byte) : lowByte (zext16 b) = b := by
  apply BitVec.eq_of_toNat_eq
  have := b.isLt
  simp [lowByte, zext16]
  omega

theorem wordOf_toNat (hi lo : Byte) : (wordOf hi lo).toNat = hi.toNat * 256 + lo.toNat := by
  have h : (wordOf hi lo).toNat = hi.toNat <<< 8 ||| lo.toNat := BitVec.toNat_append hi lo
  rw [h, ← Nat.shiftLeft_add_eq_or_of_lt lo.isLt, Nat.shiftLeft_eq]

theorem lowByte_toNat (w : Word) : (lowByte w).toNat = w.toNat % 256 := by simp [lowByte]

theorem highByte_toNat (w : Word) : (highByte w).toNat = w.toNat / 256 := by
  have := w.isLt
  simp [highByte, Nat.shiftRight_eq_div_pow]
  omega

@[simp] theorem lowByte_wordOf (hi lo : Byte) : lowByte (wordOf hi lo) = lo := by
  apply BitVec.eq_of_toNat_eq
  have := lo.isLt
  rw [lowByte_toNat, wordOf_toNat]
  omega

@[simp] theorem highByte_wordOf (hi lo : Byte) : highByte (wordOf hi lo) = hi := by
  apply BitVec.eq_of_toNat_eq
  have := lo.isLt
  rw [highByte_toNat, wordOf_toNat]
  omega

@[simp] theorem wordOf_high_low (w : Word) : wordOf (highByte w) (lowByte w) = w := by
  apply BitVec.eq_of_toNat_eq
  rw [wordOf_toNat, highByte_toNat, lowByte_toNat]
  omega

theorem zext16_toNat (b : Byte) : (zext16 b).toNat = b.toNat := by
  have := b.isLt
  simp [zext16]
  omega

/-! ### The opcode map -/

theorem decodeOpcode_ldaImm : decodeOpcode 0xA9#8 = some .ldaImm := by decide

theorem decodeOpcode_ldaZp : decodeOpcode 0xA5#8 = some .ldaZp := by decide

theorem decodeOpcode_ldaZpX : decodeOpcode 0xB5#8 = some .ldaZpX := by decide

theorem decodeOpcode_jsr : decodeOpcode 0x20#8 = some .jsr := by decide

/-- The byte of each entry of the map. -/
def Opcode.byte : Opcode → Byte
  | .ldaImm => 0xA9#8
  | .ldaZp => 0xA5#8
  | .ldaZpX => 0xB5#8
  | .jsr => 0x20#8

/-- Everything the opcode map can answer: an entry for its own byte, and nothing for any other byte. -/
theorem decodeOpcode_eq_some_iff (op : Byte) (o : Opcode) : decodeOpcode op = some o ↔ op = o.byte := by
  constructor
  · intro h
    simp only [decodeOpcode, opcodeTable, List.find?_cons, List.find?_nil] at h
    repeat' split at h
    all_goals simp_all [Opcode.byte]
    all_goals subst h; simp_all
  · rintro rfl
    cases o <;> decide

/-- No two rows of the opcode table have the same byte, so decoding is unambiguous. -/
theorem opcodeTable_rows_differ : opcodeTable.Pairwise fun p q => p.byte ≠ q.byte := by decide

/-! ### Well-formedness -/

/-- No term of Instr is ill formed: the field types have the widths of R56. -/
theorem Instr.wellFormed_true (i : Instr) : i.wellFormed = true := by
  cases i with
  | ldaImm imm8 => simpa [Instr.wellFormed] using imm8.isLt
  | ldaZp zp8 => simpa [Instr.wellFormed] using zp8.isLt
  | ldaZpX zp8 => simpa [Instr.wellFormed] using zp8.isLt
  | jsr addr => simpa [Instr.wellFormed] using addr.isLt

end Sys2Proof
end

