-- ==== Sys2Proof/Laws/Memory.lean ====
section
/-! SUPPORT. What the memory operations do to a read of one byte, and that they keep the canonical form. -/

namespace Sys2Proof.Machine

/-! ### Reading after an operation -/

theorem Memory.read_without (mem : Memory) (addr b : Nat) :
    Memory.read (Memory.without mem addr) b = if b = addr then Config.unlistedByte else Memory.read mem b := by
  induction mem with
  | nil => simp [Memory.without, Memory.read]
  | cons cell rest ih =>
    simp only [Memory.without, List.filter_cons] at ih ⊢
    by_cases h : cell.1 = addr
    · by_cases hb : b = addr
      · simp_all
      · have : ¬ addr = b := fun e => hb e.symm
        simp_all [Memory.read]
    · by_cases hb : b = addr
      · have : ¬ cell.1 = b := fun e => h (e.trans hb)
        simp_all [Memory.read]
      · simp_all [Memory.read]

theorem Memory.read_place (cell : Host.Cell) (mem : Memory) (b : Nat) (absent : ∀ c ∈ mem, c.1 ≠ cell.1) :
    Memory.read (Memory.place cell mem) b = if b = cell.1 then cell.2 else Memory.read mem b := by
  induction mem with
  | nil => simp [Memory.place, Memory.read, eq_comm]
  | cons head rest ih =>
    have hne := absent head (by simp)
    have := ih fun c hc => absent c (by simp [hc])
    simp only [Memory.place]
    split
    · simp [Memory.read, eq_comm]
    · by_cases hb : b = cell.1
      · have : ¬ head.1 = b := fun e => hne (e.trans hb)
        simp_all [Memory.read]
      · simp_all [Memory.read]

theorem Memory.absent_without (mem : Memory) (addr : Nat) : ∀ c ∈ Memory.without mem addr, c.1 ≠ addr := by
  simp [Memory.without]

/-- A read after a write: the byte written at its address, the byte read before at every other. -/
theorem Memory.read_write (mem : Memory) (addr : Nat) (v : Byte) (b : Nat) :
    Memory.read (Memory.write mem addr v) b = if b = addr then v else Memory.read mem b := by
  unfold Memory.write
  split
  · next h => rw [Memory.read_without, h]
  · rw [Memory.read_place _ _ _ (Memory.absent_without mem addr), Memory.read_without]
    split <;> simp_all

@[simp] theorem Memory.read_initialised (addr : Nat) : Memory.read Memory.initialised addr = Config.unlistedByte :=
  rfl

/-! ### The canonical form -/

theorem Memory.wf_initialised : Memory.wf Memory.initialised := by decide

theorem Memory.wf_without {mem : Memory} (h : Memory.wf mem) (addr : Nat) : Memory.wf (Memory.without mem addr) :=
  ⟨h.1.filter _, fun c hc => h.2 c (List.mem_of_mem_filter hc)⟩

theorem Memory.mem_place (cell c : Host.Cell) (mem : Memory) : c ∈ Memory.place cell mem ↔ c = cell ∨ c ∈ mem := by
  induction mem with
  | nil => simp [Memory.place]
  | cons head rest ih =>
    simp only [Memory.place]
    split
    · simp
    · simp only [List.mem_cons, ih]
      tauto

theorem Memory.wf_place {mem : Memory} (h : Memory.wf mem) (cell : Host.Cell) (absent : ∀ c ∈ mem, c.1 ≠ cell.1)
    (exist : cell.1 < Config.memSize) (listed : cell.2 ≠ Config.unlistedByte) :
    Memory.wf (Memory.place cell mem) := by
  refine ⟨?_, fun c hc => ?_⟩
  · have sorted := h.1
    clear h
    induction mem with
    | nil => simp [Memory.place]
    | cons head rest ih =>
      have hne := absent head (by simp)
      rw [List.pairwise_cons] at sorted
      simp only [Memory.place]
      split
      · next lt =>
        simp only [List.pairwise_cons, List.mem_cons, forall_eq_or_imp]
        exact ⟨⟨lt, fun c hc => lt.trans (sorted.1 c hc)⟩, sorted.1, sorted.2⟩
      · next ge =>
        rw [List.pairwise_cons]
        refine ⟨fun c hc => ?_, ih (fun c hc => absent c (by simp [hc])) sorted.2⟩
        rcases (Memory.mem_place cell c rest).1 hc with rfl | hc
        · omega
        · exact sorted.1 c hc
  · rcases (Memory.mem_place cell c mem).1 hc with rfl | hc
    · exact ⟨exist, listed⟩
    · exact h.2 c hc

/-- A write to an address that exists keeps the canonical form. -/
theorem Memory.wf_write {mem : Memory} (h : Memory.wf mem) {addr : Nat} (exist : addr < Config.memSize) (v : Byte) :
    Memory.wf (Memory.write mem addr v) := by
  unfold Memory.write
  split
  · exact Memory.wf_without h addr
  · next listed => exact Memory.wf_place (Memory.wf_without h addr) _ (Memory.absent_without mem addr) exist listed

/-- Every 16-bit address exists. -/
theorem toNat_lt_memSize (w : Word) : w.toNat < Config.memSize := w.isLt

/-- Laying out code keeps the canonical form. -/
theorem Memory.wf_placeBytes {mem : Memory} (h : Memory.wf mem) (bytes : List Byte) (addr : Word) :
    Memory.wf (placeBytes addr bytes mem) := by
  induction bytes generalizing mem addr with
  | nil => exact h
  | cons b rest ih => exact ih (Memory.wf_write h (toNat_lt_memSize addr) b) (addr + 1)

/-- The memory after reset is in canonical form. -/
theorem Memory.wf_reset : Memory.wf State.reset.mem := by decide

end Sys2Proof.Machine
end

