-- ==== Sys2Proof/Laws/State.lean ====
section
/-! SUPPORT. One lemma per field of State per update of Machine/Ops.lean, so that no later proof unfolds an update;
and the same for the flag computation, the host's flag writes and reset. -/

namespace Sys2Proof.Machine

variable (s : State)

/-! ### State.setPc -/

@[simp] theorem State.setPc_pc (v : Word) : (s.setPc v).pc = v := rfl
@[simp] theorem State.setPc_sp (v : Word) : (s.setPc v).sp = s.sp := rfl
@[simp] theorem State.setPc_a (v : Word) : (s.setPc v).a = s.a := rfl
@[simp] theorem State.setPc_x (v : Word) : (s.setPc v).x = s.x := rfl
@[simp] theorem State.setPc_y (v : Word) : (s.setPc v).y = s.y := rfl
@[simp] theorem State.setPc_flags (v : Word) : (s.setPc v).flags = s.flags := rfl
@[simp] theorem State.setPc_mem (v : Word) : (s.setPc v).mem = s.mem := rfl
@[simp] theorem State.setPc_budget (v : Word) : (s.setPc v).budget = s.budget := rfl
@[simp] theorem State.setPc_log (v : Word) : (s.setPc v).log = s.log := rfl
@[simp] theorem State.setPc_fault (v : Word) : (s.setPc v).fault = s.fault := rfl
@[simp] theorem State.setPc_byteAt (v : Word) (addr : Nat) : (s.setPc v).byteAt addr = s.byteAt addr := rfl

/-! ### State.setSp -/

@[simp] theorem State.setSp_pc (v : Word) : (s.setSp v).pc = s.pc := rfl
@[simp] theorem State.setSp_sp (v : Word) : (s.setSp v).sp = v := rfl
@[simp] theorem State.setSp_a (v : Word) : (s.setSp v).a = s.a := rfl
@[simp] theorem State.setSp_x (v : Word) : (s.setSp v).x = s.x := rfl
@[simp] theorem State.setSp_y (v : Word) : (s.setSp v).y = s.y := rfl
@[simp] theorem State.setSp_flags (v : Word) : (s.setSp v).flags = s.flags := rfl
@[simp] theorem State.setSp_mem (v : Word) : (s.setSp v).mem = s.mem := rfl
@[simp] theorem State.setSp_budget (v : Word) : (s.setSp v).budget = s.budget := rfl
@[simp] theorem State.setSp_log (v : Word) : (s.setSp v).log = s.log := rfl
@[simp] theorem State.setSp_fault (v : Word) : (s.setSp v).fault = s.fault := rfl
@[simp] theorem State.setSp_byteAt (v : Word) (addr : Nat) : (s.setSp v).byteAt addr = s.byteAt addr := rfl

/-! ### State.setA -/

@[simp] theorem State.setA_pc (v : Byte) : (s.setA v).pc = s.pc := rfl
@[simp] theorem State.setA_sp (v : Byte) : (s.setA v).sp = s.sp := rfl
@[simp] theorem State.setA_a (v : Byte) : (s.setA v).a = v := rfl
@[simp] theorem State.setA_x (v : Byte) : (s.setA v).x = s.x := rfl
@[simp] theorem State.setA_y (v : Byte) : (s.setA v).y = s.y := rfl
@[simp] theorem State.setA_flags (v : Byte) : (s.setA v).flags = s.flags := rfl
@[simp] theorem State.setA_mem (v : Byte) : (s.setA v).mem = s.mem := rfl
@[simp] theorem State.setA_budget (v : Byte) : (s.setA v).budget = s.budget := rfl
@[simp] theorem State.setA_log (v : Byte) : (s.setA v).log = s.log := rfl
@[simp] theorem State.setA_fault (v : Byte) : (s.setA v).fault = s.fault := rfl
@[simp] theorem State.setA_byteAt (v : Byte) (addr : Nat) : (s.setA v).byteAt addr = s.byteAt addr := rfl

/-! ### State.setX -/

@[simp] theorem State.setX_pc (v : Byte) : (s.setX v).pc = s.pc := rfl
@[simp] theorem State.setX_sp (v : Byte) : (s.setX v).sp = s.sp := rfl
@[simp] theorem State.setX_a (v : Byte) : (s.setX v).a = s.a := rfl
@[simp] theorem State.setX_x (v : Byte) : (s.setX v).x = v := rfl
@[simp] theorem State.setX_y (v : Byte) : (s.setX v).y = s.y := rfl
@[simp] theorem State.setX_flags (v : Byte) : (s.setX v).flags = s.flags := rfl
@[simp] theorem State.setX_mem (v : Byte) : (s.setX v).mem = s.mem := rfl
@[simp] theorem State.setX_budget (v : Byte) : (s.setX v).budget = s.budget := rfl
@[simp] theorem State.setX_log (v : Byte) : (s.setX v).log = s.log := rfl
@[simp] theorem State.setX_fault (v : Byte) : (s.setX v).fault = s.fault := rfl
@[simp] theorem State.setX_byteAt (v : Byte) (addr : Nat) : (s.setX v).byteAt addr = s.byteAt addr := rfl

/-! ### State.setY -/

@[simp] theorem State.setY_pc (v : Byte) : (s.setY v).pc = s.pc := rfl
@[simp] theorem State.setY_sp (v : Byte) : (s.setY v).sp = s.sp := rfl
@[simp] theorem State.setY_a (v : Byte) : (s.setY v).a = s.a := rfl
@[simp] theorem State.setY_x (v : Byte) : (s.setY v).x = s.x := rfl
@[simp] theorem State.setY_y (v : Byte) : (s.setY v).y = v := rfl
@[simp] theorem State.setY_flags (v : Byte) : (s.setY v).flags = s.flags := rfl
@[simp] theorem State.setY_mem (v : Byte) : (s.setY v).mem = s.mem := rfl
@[simp] theorem State.setY_budget (v : Byte) : (s.setY v).budget = s.budget := rfl
@[simp] theorem State.setY_log (v : Byte) : (s.setY v).log = s.log := rfl
@[simp] theorem State.setY_fault (v : Byte) : (s.setY v).fault = s.fault := rfl
@[simp] theorem State.setY_byteAt (v : Byte) (addr : Nat) : (s.setY v).byteAt addr = s.byteAt addr := rfl

/-! ### State.setFlags -/

@[simp] theorem State.setFlags_pc (f : Flags) : (s.setFlags f).pc = s.pc := rfl
@[simp] theorem State.setFlags_sp (f : Flags) : (s.setFlags f).sp = s.sp := rfl
@[simp] theorem State.setFlags_a (f : Flags) : (s.setFlags f).a = s.a := rfl
@[simp] theorem State.setFlags_x (f : Flags) : (s.setFlags f).x = s.x := rfl
@[simp] theorem State.setFlags_y (f : Flags) : (s.setFlags f).y = s.y := rfl
@[simp] theorem State.setFlags_flags (f : Flags) : (s.setFlags f).flags = f := rfl
@[simp] theorem State.setFlags_mem (f : Flags) : (s.setFlags f).mem = s.mem := rfl
@[simp] theorem State.setFlags_budget (f : Flags) : (s.setFlags f).budget = s.budget := rfl
@[simp] theorem State.setFlags_log (f : Flags) : (s.setFlags f).log = s.log := rfl
@[simp] theorem State.setFlags_fault (f : Flags) : (s.setFlags f).fault = s.fault := rfl
@[simp] theorem State.setFlags_byteAt (f : Flags) (addr : Nat) : (s.setFlags f).byteAt addr = s.byteAt addr := rfl

/-! ### State.setMem -/

@[simp] theorem State.setMem_pc (m : Memory) : (s.setMem m).pc = s.pc := rfl
@[simp] theorem State.setMem_sp (m : Memory) : (s.setMem m).sp = s.sp := rfl
@[simp] theorem State.setMem_a (m : Memory) : (s.setMem m).a = s.a := rfl
@[simp] theorem State.setMem_x (m : Memory) : (s.setMem m).x = s.x := rfl
@[simp] theorem State.setMem_y (m : Memory) : (s.setMem m).y = s.y := rfl
@[simp] theorem State.setMem_flags (m : Memory) : (s.setMem m).flags = s.flags := rfl
@[simp] theorem State.setMem_mem (m : Memory) : (s.setMem m).mem = m := rfl
@[simp] theorem State.setMem_budget (m : Memory) : (s.setMem m).budget = s.budget := rfl
@[simp] theorem State.setMem_log (m : Memory) : (s.setMem m).log = s.log := rfl
@[simp] theorem State.setMem_fault (m : Memory) : (s.setMem m).fault = s.fault := rfl
@[simp] theorem State.setMem_byteAt (m : Memory) (addr : Nat) : (s.setMem m).byteAt addr = Memory.read m addr := rfl

/-! ### State.setBudget -/

@[simp] theorem State.setBudget_pc (n : Int) : (s.setBudget n).pc = s.pc := rfl
@[simp] theorem State.setBudget_sp (n : Int) : (s.setBudget n).sp = s.sp := rfl
@[simp] theorem State.setBudget_a (n : Int) : (s.setBudget n).a = s.a := rfl
@[simp] theorem State.setBudget_x (n : Int) : (s.setBudget n).x = s.x := rfl
@[simp] theorem State.setBudget_y (n : Int) : (s.setBudget n).y = s.y := rfl
@[simp] theorem State.setBudget_flags (n : Int) : (s.setBudget n).flags = s.flags := rfl
@[simp] theorem State.setBudget_mem (n : Int) : (s.setBudget n).mem = s.mem := rfl
@[simp] theorem State.setBudget_budget (n : Int) : (s.setBudget n).budget = n := rfl
@[simp] theorem State.setBudget_log (n : Int) : (s.setBudget n).log = s.log := rfl
@[simp] theorem State.setBudget_fault (n : Int) : (s.setBudget n).fault = s.fault := rfl
@[simp] theorem State.setBudget_byteAt (n : Int) (addr : Nat) : (s.setBudget n).byteAt addr = s.byteAt addr := rfl

/-! ### State.charge -/

@[simp] theorem State.charge_pc (n : Int) : (s.charge n).pc = s.pc := rfl
@[simp] theorem State.charge_sp (n : Int) : (s.charge n).sp = s.sp := rfl
@[simp] theorem State.charge_a (n : Int) : (s.charge n).a = s.a := rfl
@[simp] theorem State.charge_x (n : Int) : (s.charge n).x = s.x := rfl
@[simp] theorem State.charge_y (n : Int) : (s.charge n).y = s.y := rfl
@[simp] theorem State.charge_flags (n : Int) : (s.charge n).flags = s.flags := rfl
@[simp] theorem State.charge_mem (n : Int) : (s.charge n).mem = s.mem := rfl
@[simp] theorem State.charge_budget (n : Int) : (s.charge n).budget = s.budget - n := rfl
@[simp] theorem State.charge_log (n : Int) : (s.charge n).log = s.log := rfl
@[simp] theorem State.charge_fault (n : Int) : (s.charge n).fault = s.fault := rfl
@[simp] theorem State.charge_byteAt (n : Int) (addr : Nat) : (s.charge n).byteAt addr = s.byteAt addr := rfl

/-! ### State.appendLog -/

@[simp] theorem State.appendLog_pc (r : LogRecord) : (s.appendLog r).pc = s.pc := rfl
@[simp] theorem State.appendLog_sp (r : LogRecord) : (s.appendLog r).sp = s.sp := rfl
@[simp] theorem State.appendLog_a (r : LogRecord) : (s.appendLog r).a = s.a := rfl
@[simp] theorem State.appendLog_x (r : LogRecord) : (s.appendLog r).x = s.x := rfl
@[simp] theorem State.appendLog_y (r : LogRecord) : (s.appendLog r).y = s.y := rfl
@[simp] theorem State.appendLog_flags (r : LogRecord) : (s.appendLog r).flags = s.flags := rfl
@[simp] theorem State.appendLog_mem (r : LogRecord) : (s.appendLog r).mem = s.mem := rfl
@[simp] theorem State.appendLog_budget (r : LogRecord) : (s.appendLog r).budget = s.budget := rfl
@[simp] theorem State.appendLog_log (r : LogRecord) : (s.appendLog r).log = s.log ++ [r] := rfl
@[simp] theorem State.appendLog_fault (r : LogRecord) : (s.appendLog r).fault = s.fault := rfl
@[simp] theorem State.appendLog_byteAt (r : LogRecord) (addr : Nat) : (s.appendLog r).byteAt addr = s.byteAt addr := rfl

/-! ### State.setFault -/

@[simp] theorem State.setFault_pc (f : Fault) : (s.setFault f).pc = s.pc := rfl
@[simp] theorem State.setFault_sp (f : Fault) : (s.setFault f).sp = s.sp := rfl
@[simp] theorem State.setFault_a (f : Fault) : (s.setFault f).a = s.a := rfl
@[simp] theorem State.setFault_x (f : Fault) : (s.setFault f).x = s.x := rfl
@[simp] theorem State.setFault_y (f : Fault) : (s.setFault f).y = s.y := rfl
@[simp] theorem State.setFault_flags (f : Fault) : (s.setFault f).flags = s.flags := rfl
@[simp] theorem State.setFault_mem (f : Fault) : (s.setFault f).mem = s.mem := rfl
@[simp] theorem State.setFault_budget (f : Fault) : (s.setFault f).budget = s.budget := rfl
@[simp] theorem State.setFault_log (f : Fault) : (s.setFault f).log = s.log := rfl
@[simp] theorem State.setFault_fault (f : Fault) : (s.setFault f).fault = some f := rfl
@[simp] theorem State.setFault_byteAt (f : Fault) (addr : Nat) : (s.setFault f).byteAt addr = s.byteAt addr := rfl

/-! ### SetZN (42_load_accumulator.md R92) -/

@[simp] theorem setZN_pc : (setZN s).pc = s.pc := rfl
@[simp] theorem setZN_sp : (setZN s).sp = s.sp := rfl
@[simp] theorem setZN_a : (setZN s).a = s.a := rfl
@[simp] theorem setZN_x : (setZN s).x = s.x := rfl
@[simp] theorem setZN_y : (setZN s).y = s.y := rfl
@[simp] theorem setZN_flags : (setZN s).flags = { s.flags with z := zeroOf s.a, n := negativeOf s.a } := rfl
@[simp] theorem setZN_mem : (setZN s).mem = s.mem := rfl
@[simp] theorem setZN_budget : (setZN s).budget = s.budget := rfl
@[simp] theorem setZN_log : (setZN s).log = s.log := rfl
@[simp] theorem setZN_fault : (setZN s).fault = s.fault := rfl
@[simp] theorem setZN_byteAt (addr : Nat) : (setZN s).byteAt addr = s.byteAt addr := rfl

theorem zeroOf_eq_true_iff (v : Byte) : zeroOf v = true ↔ v = 0 := by simp [zeroOf]

theorem negativeOf_eq_msb (v : Byte) : negativeOf v = v.msb := by
  simp [negativeOf, BitVec.msb_eq_getLsbD_last]

/-! ### The host's flag writes (10_state.md R23) -/

/-- Writing one flag changes that flag and no other. -/
theorem Flags.get_set (f : Flags) (name other : Flag) (bit : Bool) :
    (f.set name bit).get other = if other = name then bit else f.get other := by
  cases name <;> cases other <;> rfl

/-! ### Reset -/

@[simp] theorem hostReset_pc : (hostReset s).pc = Config.resetPc := rfl
@[simp] theorem hostReset_sp : (hostReset s).sp = Config.resetSp := rfl
@[simp] theorem hostReset_a : (hostReset s).a = 0 := rfl
@[simp] theorem hostReset_x : (hostReset s).x = 0 := rfl
@[simp] theorem hostReset_y : (hostReset s).y = 0 := rfl
@[simp] theorem hostReset_flags : (hostReset s).flags = Flags.reset := rfl
@[simp] theorem hostReset_mem : (hostReset s).mem = [] := rfl
@[simp] theorem hostReset_budget : (hostReset s).budget = s.budget := rfl
@[simp] theorem hostReset_log : (hostReset s).log = [] := rfl
@[simp] theorem hostReset_fault : (hostReset s).fault = none := rfl

end Sys2Proof.Machine
end

