-- ==== Sys2Proof/Laws/Ops.lean ====
section
/-! SUPPORT. One lemma per shared operation that says everything it can do: the primitives of 20_memory.md, the
resolver of 41_addressing_modes.md, the family's second half, and the fetch of an instruction. -/

namespace Sys2Proof.Machine

@[simp] theorem Prim.andThen_done {α β : Type} (v : α) (s : State) (next : α → State → Prim β) :
    (Prim.done v s).andThen next = next v s := rfl

@[simp] theorem Prim.andThen_raised {α β : Type} (s : State) (next : α → State → Prim β) :
    (Prim.raised s : Prim α).andThen next = .raised s := rfl

@[simp] theorem Prim.finish_done (v : Unit) (s : State) : (Prim.done v s).finish = .next s := rfl

@[simp] theorem Prim.finish_raised (s : State) : (Prim.raised s).finish = .next s := rfl

/-- Every end of an instruction is a next state. -/
theorem Prim.finish_next (r : Prim Unit) : ∃ t, r.finish = .next t := by
  cases r <;> exact ⟨_, rfl⟩

/-! ### The memory port -/

theorem memRead_exists {addr : Nat} (h : addr < Config.memSize) (s : State) :
    memRead addr s = .done (s.byteAt addr) s := if_pos h

theorem memWrite_exists {addr : Nat} (h : addr < Config.memSize) (v : Byte) (s : State) :
    memWrite addr v s = .done () (s.setMem (Memory.write s.mem addr v)) := if_pos h

/-! ### Cycle-charging primitives -/

/-- FetchByte never raises (20_memory.md R42). -/
theorem fetchByte_eq (s : State) :
    fetchByte s = .done (s.byteAt s.pc.toNat) ((s.setPc (s.pc + 1)).charge 1) := by
  simp [fetchByte, memRead_exists (toNat_lt_memSize _)]

/-- FetchWord never raises (R43). -/
theorem fetchWord_eq (s : State) :
    fetchWord s = .done (wordOf (s.byteAt (s.pc + 1).toNat) (s.byteAt s.pc.toNat))
      ((s.setPc (s.pc + 2)).charge 2) := by
  simp only [fetchWord, memRead_exists (toNat_lt_memSize _), Prim.andThen_done, State.setPc_byteAt]
  simp [State.setPc, BitVec.add_assoc]

/-- ReadByte never raises on a 16-bit address (R44). -/
theorem readByte_eq (addr : Word) (s : State) :
    readByte addr.toNat s = .done (s.byteAt addr.toNat) (s.charge 1) := by
  simp [readByte, memRead_exists (toNat_lt_memSize _)]

theorem internal_eq (n : Int) (s : State) : internal n s = .done () (s.charge n) := rfl

/-- WriteWord where both bytes exist (R46). -/
theorem writeWord_exists {addr : Nat} (h : addr + 1 < Config.memSize) (v : Word) (s : State) :
    writeWord v addr s = .done () ((s.setMem (Memory.write (Memory.write s.mem addr (lowByte v)) (addr + 1)
      (highByte v))).charge 2) := by
  have h' : addr < Config.memSize := by omega
  simp only [writeWord, if_pos h, memWrite_exists h', memWrite_exists h, Prim.andThen_done]
  rfl

/-- WriteWord at the top of memory raises and writes neither byte (R46). -/
theorem writeWord_raises {addr : Nat} (h : ¬ addr + 1 < Config.memSize) (v : Word) (s : State) :
    writeWord v addr s = .raised (s.setFault (.outOfRangeAccess (addr + 1))) := if_neg h

/-! ### The resolver -/

/-- The operand bytes of a format never raise: PC moves past them and each costs a cycle. -/
theorem fetchOperand_eq (f : Format) (s : State) :
    ∃ operand, fetchOperand f s =
      .done operand ((s.setPc (s.pc + BitVec.ofNat 16 (f.length - 1))).charge (f.length - 1 : Nat)) := by
  cases f with
  | op => exact ⟨0, by simp [fetchOperand, Format.length, State.setPc, State.charge, State.setBudget]⟩
  | imm8 => exact ⟨_, by simp only [fetchOperand, fetchByte_eq, Prim.andThen_done, Format.length]; rfl⟩
  | zp8 => exact ⟨_, by simp only [fetchOperand, fetchByte_eq, Prim.andThen_done, Format.length]; rfl⟩
  | abs16 => exact ⟨_, by simp only [fetchOperand, fetchWord_eq, Format.length]; rfl⟩

theorem resolveZeroPage_eq (zp : Byte) (s : State) :
    resolveZeroPage zp s = .done (s.byteAt (zeroPageAddr zp).toNat) (s.charge 1) := readByte_eq _ s

theorem resolveZeroPageX_eq (zp : Byte) (s : State) :
    resolveZeroPageX zp s = .done (s.byteAt (zeroPageXAddr zp s.x).toNat) ((s.charge 1).charge 1) := by
  simp [resolveZeroPageX, internal_eq, readByte_eq]

@[simp] theorem loadAccumulator_done (v : Byte) (s : State) :
    loadAccumulator (.done v s) = .done () (setZN (s.setA v)) := rfl

/-! ### Fetching an instruction -/

/-- A byte outside the opcode map: one cycle, PC past that byte (40_fetch_decode_dispatch.md R71, R74). -/
theorem fetchInstr_unknown {s : State} (h : decodeOpcode (s.byteAt s.pc.toNat) = none) :
    fetchInstr s = .done (.unknown (s.byteAt s.pc.toNat)) ((s.setPc (s.pc + 1)).charge 1) := by
  simp [fetchInstr, fetchByte_eq, h]

/-- A byte of the opcode map: its instruction, with the operand that FetchByte or FetchWord finds behind it. -/
theorem fetchInstr_known {s : State} {o : Opcode} (h : decodeOpcode (s.byteAt s.pc.toNat) = some o) :
    fetchInstr s = (fetchOperand o.format ((s.setPc (s.pc + 1)).charge 1)).andThen
      fun operand t => .done (.known (o.instr operand)) t := by
  simp [fetchInstr, fetchByte_eq, h]

/-- The fetch never raises (20_memory.md R42, R43). -/
theorem fetchInstr_done (s : State) : ∃ found t, fetchInstr s = .done found t := by
  cases h : decodeOpcode (s.byteAt s.pc.toNat) with
  | none => exact ⟨_, _, fetchInstr_unknown h⟩
  | some o =>
    obtain ⟨operand, hop⟩ := fetchOperand_eq o.format ((s.setPc (s.pc + 1)).charge 1)
    exact ⟨_, _, by rw [fetchInstr_known h, hop]; rfl⟩

end Sys2Proof.Machine
end

