-- ==== Sys2Proof/Laws/PerInstr.lean ====
section
/-! SUPPORT. Statements about every instruction as syntax, one lemma per constructor. Family EncodedLength: the
encoding begins with a byte of the opcode map and is as long as that byte says (30_encoding.md R55, R62). -/

namespace Sys2Proof.Laws.EncodedLength

/-- The encoding of `i` has an opcode byte, the opcode map has it, and the encoding has that opcode's length. -/
def Statement (i : Instr) : Prop :=
  ∃ op operands, encode i = op :: operands ∧ (decodeOpcode op).isSome = true ∧ (encode i).length = lengthOf op

theorem ldaImm (imm8 : Byte) : Statement (.ldaImm imm8) := ⟨0xA9#8, [imm8], rfl, by decide, rfl⟩

theorem ldaZp (zp8 : Byte) : Statement (.ldaZp zp8) := ⟨0xA5#8, [zp8], rfl, by decide, rfl⟩

theorem ldaZpX (zp8 : Byte) : Statement (.ldaZpX zp8) := ⟨0xB5#8, [zp8], rfl, by decide, rfl⟩

theorem jsr (addr : Word) : Statement (.jsr addr) := ⟨0x20#8, [lowByte addr, highByte addr], rfl, by decide, rfl⟩

end Sys2Proof.Laws.EncodedLength
end

