-- ==== Sys2Proof/Laws/Run.lean ====
section
/-! SUPPORT. One round of the two loops over step: the host's `run` and the loop of `execute`. -/

namespace Sys2Proof.Machine

theorem core_run_zero (s : State) : Host.Core.run core 0 s = .next s := rfl

/-- A run whose first step goes on. -/
theorem core_run_succ {s t : State} (h : step s = .next t) (k : Nat) :
    Host.Core.run core (k + 1) s = Host.Core.run core k t := by
  have h' : core.step s = .next t := h
  simp only [Host.Core.run, h']

/-- The loop of `execute` stops where the budget is spent or a fault is set, whatever fuel is left. -/
theorem executeLoop_stops {s : State} (h : ¬ (0 < s.budget ∧ s.fault = none)) (fuel : Nat) :
    executeLoop fuel s = s := by
  cases fuel with
  | zero => rfl
  | succ fuel => simp only [executeLoop, if_neg h]

/-- The loop of `execute` takes a step while the budget is positive and no fault is set. -/
theorem executeLoop_steps {s t : State} (positive : 0 < s.budget) (running : s.fault = none) (h : step s = .next t)
    (fuel : Nat) : executeLoop (fuel + 1) s = executeLoop fuel t := by
  simp only [executeLoop, if_pos (And.intro positive running), h]

end Sys2Proof.Machine
end

