-- ==== Sys2Proof/Tests/Slice0.lean ====
section
/-! SUPPORT. Small tests, their expected results taken from 95_test_vectors.md and the encodings of 30_encoding.md,
and for each statement with hypotheses a theorem that shows concrete states and operands meeting them. -/

namespace Sys2Proof.Tests

open Sys2Proof Sys2Proof.Machine

/-! ### Helpers -/

/-- Store bytes at an address, as the host does before a run. -/
def poke (addr : Word) (bytes : List Byte) (s : State) : State := s.setMem (placeBytes addr bytes s.mem)

/-- The reset state with a program at the first opcode's address. -/
def boot (bytes : List Byte) : State := poke 0xFFFC#16 bytes State.reset

/-- The state after one step, or the same state where the step stops. -/
def after (s : State) : State :=
  match step s with
  | .next t => t
  | .fault _ => s
  | .refused _ => s

/-- The state after exec. -/
def ran (i : Instr) (s : State) : State :=
  match exec i s with
  | .next t => t
  | .fault _ => s
  | .refused _ => s

/-- `LDA #$84` at reset (W2). -/
def sImm : State := boot [0xA9#8, 0x84#8]

/-- `LDA $FF` at reset, 0x80 at the top of the zero page (M2). -/
def sZp : State := poke 0x00FF#16 [0x80#8] (boot [0xA5#8, 0xFF#8])

/-- `LDA $80,X` at reset with X = 0xFF; 0x37 at 0x007F and 0x99 at 0x017F (M3). -/
def sZpX : State := (poke 0x017F#16 [0x99#8] (poke 0x007F#16 [0x37#8] (boot [0xB5#8, 0x80#8]))).setX 0xFF#8

/-- `JSR $4242` at reset (W5). -/
def sJsr : State := boot [0x20#8, 0x42#8, 0x42#8]

/-- `JSR $9000` with the highest SP that has two stack bytes (J5). -/
def sJsrHigh : State := (boot [0x20#8, 0x00#8, 0x90#8]).setSp 0xFFFE#16

/-- `JSR $9000` with SP = 0xFFFF (J4). -/
def sJsrTop : State := (boot [0x20#8, 0x00#8, 0x90#8]).setSp 0xFFFF#16

/-- An unknown opcode at reset, with the host's register writes of D8. -/
def sUnknown : State :=
  hostWrites [.a 0x55#8, .x 0x03#8, .flag .c true, .flag .z true] (boot [0xFF#8])

/-- The faulted end of J4. -/
def sFaulted : State := after sJsrTop

/-- `JSR $4242` whose return slot is its target (P4). -/
def sJsrOntoSlot : State := sJsr.setSp 0x4242#16

/-- Two calls in a row (P3). -/
def sNested : State := poke 0x0010#16 [0x20#8, 0x20#8, 0x00#8] (boot [0x20#8, 0x10#8, 0x00#8])

/-! ### Well-formedness: an ill-formed list of bytes for each check, refused -/

theorem test_wellFormed_refuses_no_bytes : wellFormedBytes [] = false := by decide

theorem test_wellFormed_refuses_unknown_opcode : wellFormedBytes [0x00#8] = false := by decide

theorem test_wellFormed_refuses_missing_operand : wellFormedBytes [0x20#8, 0x42#8] = false := by decide

theorem test_wellFormed_refuses_bytes_left_over : wellFormedBytes [0xA9#8, 0x84#8, 0x00#8] = false := by decide

theorem test_wellFormed_accepts_jsr : wellFormedBytes [0x20#8, 0x42#8, 0x42#8] = true := by decide

/-! ### Decoding words written out from R56 and R60 -/

theorem test_decode_ldaImm : decode [0b10101001#8, 0b10000100#8] = .ok (.ldaImm 0x84#8, []) := by decide

theorem test_decode_ldaZp : decode [0b10100101#8, 0b01000010#8] = .ok (.ldaZp 0x42#8, []) := by decide

theorem test_decode_ldaZpX : decode [0b10110101#8, 0b10000000#8] = .ok (.ldaZpX 0x80#8, []) := by decide

/-- Byte 1 is the low byte of the target (R59). -/
theorem test_decode_jsr : decode [0b00100000#8, 0b00110100#8, 0b00010010#8] = .ok (.jsr 0x1234#16, []) := by decide

/-- BRK and RTS of a physical 6502 are unknown opcodes here (R63). -/
theorem test_decode_rejects_brk_and_rts :
    decode [0x00#8] = .error (.unknownOpcode 0x00#8) ∧ decode [0x60#8] = .error (.unknownOpcode 0x60#8) := by decide

theorem test_decode_rejects_short : decode [0x20#8, 0x34#8] = .error (.missingOperand 0x20#8) := by decide

theorem test_decodeTableWord :
    decodeTableWord 16 0x84A9 = some (.ldaImm 0x84#8) ∧ decodeTableWord 24 0x123420 = some (.jsr 0x1234#16) ∧
    decodeTableWord 8 0x123420 = some (.jsr 0x0000#16) ∧ decodeTableWord 8 0x00 = none := by decide

/-! ### One step of each instruction (95_test_vectors.md) -/

/-- M1: the operand comes from 0x0000 across the wrap. -/
theorem test_ldaImm_across_wrap :
    let t := after (poke 0xFFFF#16 [0xA9#8, 0x7F#8] (State.reset.setPc 0xFFFF#16))
    t.a = 0x7F#8 ∧ t.flags.z = false ∧ t.flags.n = false ∧ t.pc = 0x0001#16 ∧ t.budget = -2 := by decide

/-- F6: Z is rewritten from the same value, and C, I, D, B, V stay. -/
theorem test_ldaImm_rewrites_z_and_n :
    (after (hostWrites [.a 0x80#8, .flag .z true, .flag .c true, .flag .i true, .flag .d true, .flag .b true,
      .flag .v true] (boot [0xA9#8, 0x80#8]))).flags =
      { c := true, z := false, i := true, d := true, b := true, v := true, n := true } := by decide

/-- M2. -/
theorem test_ldaZp_top_of_zero_page :
    (after sZp).a = 0x80#8 ∧ (after sZp).flags.n = true ∧ (after sZp).pc = 0xFFFE#16 ∧
    (execute 3 sZp).2 = 3 := by decide

/-- M3: 0x80 + 0xFF reads 0x007F, not 0x017F. -/
theorem test_ldaZpX_wraps :
    (after sZpX).a = 0x37#8 ∧ (after sZpX).x = 0xFF#8 ∧ (execute 4 sZpX).2 = 4 := by decide

/-- M4: an unwritten byte reads 0x00 and sets Z. -/
theorem test_ldaZpX_reads_zero :
    let t := after ((boot [0xB5#8, 0x42#8]).setA 0x10#8)
    t.a = 0x00#8 ∧ t.flags.z = true ∧ t.flags.n = false := by decide

/-- J3: operand across the wrap, return address 0x0000. -/
theorem test_jsr_across_wrap :
    let t := after (poke 0xFFFE#16 [0x20#8, 0x00#8, 0x30#8] (State.reset.setPc 0xFFFE#16))
    t.pc = 0x3000#16 ∧ t.byteAt 0x0100 = 0x00#8 ∧ t.byteAt 0x0101 = 0x00#8 ∧ t.sp = 0x0100#16 := by decide

/-- J5: the return address overwrites the instruction's own bytes after their fetch. -/
theorem test_jsr_over_its_own_bytes :
    (after sJsrHigh).pc = 0x9000#16 ∧ (after sJsrHigh).byteAt 0xFFFE = 0xFE#8 ∧
    (after sJsrHigh).byteAt 0xFFFF = 0xFF#8 ∧ (after sJsrHigh).fault = none := by decide

/-- J4. -/
theorem test_jsr_faults_at_top :
    execute 10 sJsrTop = ({ sJsrTop with pc := 0xFFFF#16, budget := 7, fault := some (.outOfRangeAccess 0x10000) }, 3) :=
  by decide

/-- D8. -/
theorem test_unknown_opcode :
    after sUnknown = { sUnknown with pc := 0xFFFD#16, budget := -1, log := [.unknown 0xFFFC#16 0xFF#8] } := by decide

/-- The faulted state runs nothing more, and reset clears the fault (P5). -/
theorem test_faulted_state_is_stuck_until_reset :
    (execute 10 sFaulted).2 = 0 ∧ (execute 10 sFaulted).1.fault = some (.outOfRangeAccess 0x10000) ∧
    (hostReset sFaulted).fault = none := by decide

/-- D1, D2: no step on a budget of zero or below. -/
theorem test_execute_nothing : execute 0 sImm = ({ sImm with budget := 0 }, 0) ∧
    execute (-3) sImm = ({ sImm with budget := -3 }, 0) := by decide

/-- P-3: FetchWord across the wrap. -/
theorem test_fetchWord_across_wrap :
    let s := poke 0xFFFF#16 [0x34#8, 0x12#8] (State.reset.setPc 0xFFFF#16)
    fetchWord s = .done 0x1234#16 { s with pc := 0x0001#16, budget := -2 } := by decide

/-- Writing what an unlisted address reads as removes the entry. -/
theorem test_memory_write_zero_unlists :
    Memory.write (Memory.write [] 5 0x01#8) 5 0x00#8 = [] ∧
    Memory.write (Memory.write [] 9 0x01#8) 5 0x02#8 = [(5, 0x02#8), (9, 0x01#8)] := by decide

/-! ### Witnesses: states and operands that meet the hypotheses of the statements -/

theorem witness_DecodedBytesReencode :
    decode [0x20#8, 0x34#8, 0x12#8, 0xFF#8] = .ok (.jsr 0x1234#16, [0xFF#8]) := by decide

theorem witness_OpcodeFixesInstructionLength :
    decode (0x20#8 :: [0x34#8, 0x12#8, 0xFF#8]) = .ok (.jsr 0x1234#16, [0xFF#8]) ∧
    lengthOf 0x20#8 = 3 ∧ lengthOf 0xA9#8 = 2 ∧ lengthOf 0xA5#8 = 2 ∧ lengthOf 0xB5#8 = 2 ∧ lengthOf 0x00#8 = 1 := by
  decide

theorem witness_OpcodeMapHasFourEntries :
    (0x00#8 : Byte) ≠ 0xA9#8 ∧ (0x00#8 : Byte) ≠ 0xA5#8 ∧ (0x00#8 : Byte) ≠ 0xB5#8 ∧ (0x00#8 : Byte) ≠ 0x20#8 ∧
    decode [0x00#8] = .error (.unknownOpcode 0x00#8) := by decide

/-- Both clauses at the boundary: address 65535 and address 65536. -/
theorem witness_MemReadReturnsByteOrFaults :
    65535 ≤ 65535 ∧ memRead 65535 State.reset = .done 0x00#8 State.reset ∧ 65535 < 65536 ∧
    memRead 65536 State.reset = .raised { State.reset with fault := some (.outOfRangeAccess 65536) } := by decide

theorem witness_MemWriteStoresOneByteOrFaults :
    65535 ≤ 65535 ∧ memWrite 65535 0x01#8 State.reset = .done () { State.reset with mem := [(65535, 0x01#8)] } ∧
    65535 < 65536 ∧
    memWrite 65536 0x01#8 State.reset = .raised { State.reset with fault := some (.outOfRangeAccess 65536) } := by decide

theorem witness_CanonicalMemoriesWithEqualReadsAreEqual :
    Memory.wf [(0, 0x01#8), (65535, 0x02#8)] ∧ Memory.wf (Memory.write (Memory.write [] 65535 0x02#8) 0 0x01#8) ∧
    ∀ addr, addr ≤ 65535 → Memory.read [(0, 0x01#8), (65535, 0x02#8)] addr =
      Memory.read (Memory.write (Memory.write [] 65535 0x02#8) 0 0x01#8) addr :=
  ⟨by decide, by decide, fun _ _ => rfl⟩

theorem witness_BytePrimitivesChargeTheirCycles :
    65535 ≤ 65535 ∧ readByte 65535 State.reset = .done 0x00#8 { State.reset with budget := -1 } ∧ 65535 < 65536 ∧
    readByte 65536 State.reset = .raised { State.reset with fault := some (.outOfRangeAccess 65536) } := by decide

/-- P-1 and P-2: the two clauses meet at addresses 0xFFFE and 0xFFFF. -/
theorem witness_WriteWordStoresLittleEndianOrFaults :
    0xFFFE + 1 ≤ 65535 ∧ writeWord 0x1234#16 0xFFFE State.reset =
      .done () { State.reset with mem := [(0xFFFE, 0x34#8), (0xFFFF, 0x12#8)], budget := -2 } ∧
    65535 < 0xFFFF + 1 ∧ writeWord 0x1234#16 0xFFFF State.reset =
      .raised { State.reset with fault := some (.outOfRangeAccess 0x10000) } := by decide

theorem witness_JsrAnswersItsResult : sJsr.sp ≠ 0xFFFF#16 ∧ sJsrHigh.sp ≠ 0xFFFF#16 := by decide

theorem witness_JsrAtTopOfMemoryFaults : sJsrTop.sp = 0xFFFF#16 := by decide

theorem witness_LoadsFrame :
    exec (.ldaImm 0x84#8) sImm = .next (ran (.ldaImm 0x84#8) sImm) ∧
    exec (.ldaZp 0x84#8) sImm = .next (ran (.ldaZp 0x84#8) sImm) ∧
    exec (.ldaZpX 0x84#8) sImm = .next (ran (.ldaZpX 0x84#8) sImm) := ⟨rfl, rfl, rfl⟩

/-- Both stack clauses: SP = 0xFFFE, where the bytes outside 0xFFFE and 0xFFFF are framed, and SP = 0xFFFF. -/
theorem witness_JsrFrame :
    exec (.jsr 0x9000#16) sJsrHigh = .next (ran (.jsr 0x9000#16) sJsrHigh) ∧ sJsrHigh.sp ≠ 0xFFFF#16 ∧
    stackAddress sJsrHigh = 0xFFFE ∧ 0xFFFD ≠ 0xFFFE ∧ 0xFFFD ≠ 0xFFFE + 1 ∧
    exec (.jsr 0x9000#16) sJsrTop = .next (ran (.jsr 0x9000#16) sJsrTop) ∧ sJsrTop.sp = 0xFFFF#16 :=
  ⟨rfl, by decide, by decide, by decide, by decide, rfl, by decide⟩

theorem witness_StepRunsTheDecodedInstruction :
    sImm.fault = none ∧ decode (codeBytes sImm) = .ok (.ldaImm 0x84#8, [0x00#8]) ∧
    sZp.fault = none ∧ decode (codeBytes sZp) = .ok (.ldaZp 0xFF#8, [0x00#8]) ∧
    sZpX.fault = none ∧ decode (codeBytes sZpX) = .ok (.ldaZpX 0x80#8, [0x00#8]) ∧
    sJsr.fault = none ∧ decode (codeBytes sJsr) = .ok (.jsr 0x4242#16, []) := by decide

theorem witness_FaultedStepStops : sFaulted.fault = some (.outOfRangeAccess 0x10000) := by decide

theorem witness_EveryByteHasAStep : sUnknown.fault = none ∧ sJsrTop.fault = none := by decide

theorem witness_StepLdaImmediate : sImm.fault = none ∧ sImm.byteAt sImm.pc.toNat = 0xA9#8 := by decide

theorem witness_StepLdaZeroPage : sZp.fault = none ∧ sZp.byteAt sZp.pc.toNat = 0xA5#8 := by decide

theorem witness_StepLdaZeroPageX : sZpX.fault = none ∧ sZpX.byteAt sZpX.pc.toNat = 0xB5#8 := by decide

/-- Both clauses, at SP = 0xFFFE and SP = 0xFFFF. -/
theorem witness_StepJsr :
    sJsrHigh.fault = none ∧ sJsrHigh.byteAt sJsrHigh.pc.toNat = 0x20#8 ∧ sJsrHigh.sp ≠ 0xFFFF#16 ∧
    sJsrTop.fault = none ∧ sJsrTop.byteAt sJsrTop.pc.toNat = 0x20#8 ∧ sJsrTop.sp = 0xFFFF#16 ∧ (0 : Int) < 1 := by decide

theorem witness_StepUnknownOpcode :
    sUnknown.fault = none ∧ sUnknown.byteAt sUnknown.pc.toNat = 0xFF#8 ∧ (0xFF#8 : Byte) ≠ 0xA9#8 ∧
    (0xFF#8 : Byte) ≠ 0xA5#8 ∧ (0xFF#8 : Byte) ≠ 0xB5#8 ∧ (0xFF#8 : Byte) ≠ 0x20#8 := by decide

theorem witness_UnknownOpcodeFrame :
    decodeOpcode (sUnknown.byteAt sUnknown.pc.toNat) = none ∧ step sUnknown = .next (after sUnknown) :=
  ⟨by decide, rfl⟩

/-- A step that goes on, of each kind: the three loads, JSR, JSR that faults, an unknown opcode. Meets the hypothesis
of NoStepWritesHostOnlyState, NoStepReportsAndFaults, StepIgnoresTheBudget and StepIgnoresTheLog. -/
theorem witness_step_goes_on :
    step sImm = .next (after sImm) ∧ step sZp = .next (after sZp) ∧ step sZpX = .next (after sZpX) ∧
    step sJsr = .next (after sJsr) ∧ step sJsrTop = .next (after sJsrTop) ∧ step sUnknown = .next (after sUnknown) :=
  ⟨rfl, rfl, rfl, rfl, rfl, rfl⟩

/-- Each opcode clause. -/
theorem witness_ZeroAndNegativeFollowLoads :
    step sImm = .next (after sImm) ∧ opcodeAt sImm = 0xA9#8 ∧ step sZp = .next (after sZp) ∧ opcodeAt sZp = 0xA5#8 ∧
    step sZpX = .next (after sZpX) ∧ opcodeAt sZpX = 0xB5#8 ∧ step sJsr = .next (after sJsr) ∧
    opcodeAt sJsr ≠ 0xA9#8 ∧ opcodeAt sJsr ≠ 0xA5#8 ∧ opcodeAt sJsr ≠ 0xB5#8 :=
  ⟨rfl, by decide, rfl, by decide, rfl, by decide, rfl, by decide, by decide, by decide⟩

theorem witness_StepIgnoresFlagsAndY :
    step sImm = .next (after sImm) ∧ opcodeAt sImm = 0xA9#8 ∧ step sJsr = .next (after sJsr) ∧
    opcodeAt sJsr ≠ 0xA9#8 ∧ opcodeAt sJsr ≠ 0xA5#8 ∧ opcodeAt sJsr ≠ 0xB5#8 :=
  ⟨rfl, by decide, rfl, by decide, by decide, by decide⟩

/-- The addresses next to the two stack bytes 0x0100 and 0x0101. -/
theorem witness_OnlyJsrWritesMemory :
    step sImm = .next (after sImm) ∧ opcodeAt sImm ≠ 0x20#8 ∧ step sJsr = .next (after sJsr) ∧
    0x00FF ≠ sJsr.sp.toNat ∧ 0x00FF ≠ sJsr.sp.toNat + 1 ∧ 0x0102 ≠ sJsr.sp.toNat ∧ 0x0102 ≠ sJsr.sp.toNat + 1 :=
  ⟨rfl, by decide, rfl, by decide, by decide, by decide, by decide⟩

theorem witness_StepChargesItsCost :
    step sJsr = .next (after sJsr) ∧ (after sJsr).fault = none ∧ step sUnknown = .next (after sUnknown) ∧
    (after sUnknown).fault = none := ⟨rfl, by decide, rfl, by decide⟩

theorem witness_OnlyJsrAtTopOfMemoryFaults :
    step sJsrTop = .next (after sJsrTop) ∧ (after sJsrTop).fault ≠ none ∧ step sJsrHigh = .next (after sJsrHigh) ∧
    (after sJsrHigh).fault = none := ⟨rfl, by decide, rfl, by decide⟩

theorem witness_NoFaultWhileStackSlotExists : NotFaulted sJsrHigh ∧ StackSlotExists sJsrHigh := by
  constructor
  · rfl
  · exact (by decide : sJsrHigh.sp ≠ 0xFFFF#16)

theorem witness_FetchSeesTheReturnAddressWritten :
    opcodeAt sJsrOntoSlot = 0x20#8 ∧ sJsrOntoSlot.sp ≠ 0xFFFF#16 ∧
    step sJsrOntoSlot = .next (after sJsrOntoSlot) ∧ (after sJsrOntoSlot).pc = sJsrOntoSlot.sp :=
  ⟨by decide, by decide, rfl, by decide⟩

theorem witness_SecondJsrOverwritesTheReturnAddress :
    opcodeAt sNested = 0x20#8 ∧ step sNested = .next (after sNested) ∧ opcodeAt (after sNested) = 0x20#8 ∧
    step (after sNested) = .next (after (after sNested)) ∧ sNested.sp ≠ 0xFFFF#16 :=
  ⟨by decide, rfl, by decide, rfl, by decide⟩

/-- Also where the step records the fault. -/
theorem witness_StepKeepsStateInv :
    StateInv sJsr ∧ step sJsr = .next (after sJsr) ∧ StateInv sJsrTop ∧ step sJsrTop = .next (after sJsrTop) :=
  ⟨⟨by decide, Or.inl rfl⟩, rfl, ⟨by decide, Or.inl rfl⟩, rfl⟩

theorem witness_SessionMeetsStateInv :
    Session (execute 6 (hostWrite (.byte 0xFFFC#16 0x20#8) (hostReset State.reset))).1 :=
  .execute 6 (.write _ (.reset .start))

/-- Each clause: n = 1 with no fault at the end, and n = 0. -/
theorem witness_ExecuteReturnsCyclesConsumed :
    (0 : Int) < 1 ∧ (execute 1 sImm).1.fault = none ∧ (0 : Int) ≤ 0 := by decide

/-- Each clause at its boundary: n = 0, a faulted state, and n = 1 without a fault. -/
theorem witness_ExecuteIsTheWhileLoop :
    (0 : Int) ≤ 0 ∧ sFaulted.fault ≠ none ∧ (0 : Int) < 1 ∧ sJsr.fault = none := by decide

theorem witness_ExecuteIsTheShortestRun : step sJsr = .next (after sJsr) ∧ sJsr.fault = none := ⟨rfl, rfl⟩

/-- D6: the lowest possible budget is reached. -/
theorem witness_ExecuteOvershootsByOneInstruction :
    (0 : Int) < 1 ∧ (execute 1 sJsr).1.fault = none ∧ (execute 1 sJsr).1.budget = -5 ∧ (execute 1 sJsr).2 = 6 := by
  decide

theorem witness_ExecuteSplitsIntoConsecutiveCalls : (1 : Int) ≤ 3 := by decide

theorem witness_ExecuteOneRunsOneInstruction : sJsrTop.fault = none := by decide

theorem witness_FaultStaysUntilReset : sFaulted.fault = some (.outOfRangeAccess 0x10000) := by decide

theorem witness_LoadedWordRuns :
    State.reset.fault = none ∧ decodeTableWord 16 0x84A9 = some (.ldaImm 0x84#8) ∧
    decodeTableWord 8 0x20 = some (.jsr 0x0000#16) := by decide

end Sys2Proof.Tests
end

section
/-! SUPPORT. What `exec` and `step` answer, in full, for each form of instruction; the least that a step charges; and
the loop of `execute` run to its end. -/

namespace Sys2Proof

/-- Every format holds at least its opcode byte (30_encoding.md R56). -/
theorem Format.one_le_length (f : Format) : 1 ≤ f.length := by cases f <;> decide

end Sys2Proof

namespace Sys2Proof.Machine

/-! ### The end of `exec`, per instruction -/

theorem exec_ldaImm (imm8 : Byte) (s : State) : exec (.ldaImm imm8) s = .next (setZN (s.setA imm8)) := rfl

theorem exec_ldaZp (zp8 : Byte) (s : State) :
    exec (.ldaZp zp8) s = .next (setZN ((s.charge 1).setA (s.byteAt (zeroPageAddr zp8).toNat))) := by
  simp [exec, execLdaZp, resolveZeroPage_eq]

theorem exec_ldaZpX (zp8 : Byte) (s : State) :
    exec (.ldaZpX zp8) s =
      .next (setZN (((s.charge 1).charge 1).setA (s.byteAt (zeroPageXAddr zp8 s.x).toNat))) := by
  simp [exec, execLdaZpX, resolveZeroPageX_eq]

/-- JSR where both stack bytes exist (43_jump_to_subroutine.md R93). -/
theorem exec_jsr_writes {s : State} (h : stackAddress s + 1 < Config.memSize) (addr : Word) :
    exec (.jsr addr) s =
      .next ((((s.setMem (Memory.write (Memory.write s.mem (stackAddress s) (lowByte (returnAddress s)))
        (stackAddress s + 1) (highByte (returnAddress s)))).charge 2).setPc addr).charge 1) := by
  simp [exec, execJsr, resolveAbsolute, writeWord_exists h, internal_eq]

/-- JSR where the second stack byte does not exist (60_exceptions.md R101). -/
theorem exec_jsr_raises {s : State} (h : ¬ stackAddress s + 1 < Config.memSize) (addr : Word) :
    exec (.jsr addr) s = .next (s.setFault (.outOfRangeAccess (stackAddress s + 1))) := by
  simp [exec, execJsr, resolveAbsolute, writeWord_raises h]

/-- Every instruction ends in a next state, and what it charges after its fetch is not negative. -/
theorem exec_next_budget_le (i : Instr) (s : State) : ∃ t, exec i s = .next t ∧ t.budget ≤ s.budget := by
  cases i with
  | ldaImm imm8 => exact ⟨_, exec_ldaImm imm8 s, le_refl _⟩
  | ldaZp zp8 => exact ⟨_, exec_ldaZp zp8 s, by simp⟩
  | ldaZpX zp8 =>
    refine ⟨_, exec_ldaZpX zp8 s, ?_⟩
    simp only [setZN_budget, State.setA_budget, State.charge_budget]
    omega
  | jsr addr =>
    by_cases h : stackAddress s + 1 < Config.memSize
    · refine ⟨_, exec_jsr_writes h addr, ?_⟩
      simp only [State.charge_budget, State.setPc_budget, State.setMem_budget]
      omega
    · exact ⟨_, exec_jsr_raises h addr, le_refl _⟩

/-! ### `step` without a fault -/

/-- Past the opcode byte and then past the operand bytes is past the instruction. -/
theorem pastInstr_eq_opcode_operand (f : Format) (s : State) :
    (((s.setPc (s.pc + 1)).charge 1).setPc (s.pc + 1 + BitVec.ofNat 16 (f.length - 1))).charge
      (f.length - 1 : Nat) = pastInstr f.length s := by
  have hpc : s.pc + 1 + BitVec.ofNat 16 (f.length - 1) = s.pc + BitVec.ofNat 16 f.length := by
    cases f <;> simp [Format.length, BitVec.add_assoc]
  have hbudget : s.budget - 1 - (f.length - 1 : Nat) = s.budget - f.length := by
    have := f.one_le_length
    omega
  rw [hpc]
  simp [pastInstr, State.setPc, State.charge, State.setBudget, hbudget]

/-- A byte outside the opcode map: one cycle, PC past the byte, one record (40_fetch_decode_dispatch.md R74). -/
theorem step_unknown {s : State} (running : s.fault = none) (h : decodeOpcode (opcodeAt s) = none) :
    step s = .next (((s.setPc (s.pc + 1)).charge 1).appendLog (.unknown s.pc (opcodeAt s))) := by
  simp only [step, running, fetchInstr_unknown h, runUnknown]
  rfl

/-- A byte of the opcode map: its instruction runs from the state past the instruction's bytes (R73). -/
theorem step_known {s : State} {o : Opcode} (running : s.fault = none) (h : decodeOpcode (opcodeAt s) = some o) :
    ∃ operand, step s = exec (o.instr operand) (pastInstr o.format.length s) := by
  obtain ⟨operand, hop⟩ := fetchOperand_eq o.format ((s.setPc (s.pc + 1)).charge 1)
  rw [State.charge_pc, State.setPc_pc, pastInstr_eq_opcode_operand] at hop
  exact ⟨operand, by simp only [step, running, fetchInstr_known h, hop, Prim.andThen_done]⟩

/-- A step without a fault set completes and charges at least one cycle (R70, R77). -/
theorem step_next_charges {s : State} (running : s.fault = none) :
    ∃ t, step s = .next t ∧ t.budget + 1 ≤ s.budget := by
  cases h : decodeOpcode (opcodeAt s) with
  | none => exact ⟨_, step_unknown running h, by simp⟩
  | some o =>
    obtain ⟨operand, hstep⟩ := step_known running h
    obtain ⟨t, hexec, hle⟩ := exec_next_budget_le (o.instr operand) (pastInstr o.format.length s)
    have hpast : (pastInstr o.format.length s).budget = s.budget - o.format.length := rfl
    have := o.format.one_le_length
    exact ⟨t, hstep.trans hexec, by omega⟩

/-! ### The loop of `execute` -/

/-- Fuel for the whole budget takes the loop to its end: the budget is spent or a fault is set. -/
theorem executeLoop_ends (fuel : Nat) (s : State) (enough : s.budget ≤ fuel) :
    (executeLoop fuel s).budget ≤ 0 ∨ (executeLoop fuel s).fault ≠ none := by
  induction fuel generalizing s with
  | zero => exact .inl enough
  | succ fuel ih =>
    by_cases go : 0 < s.budget ∧ s.fault = none
    · obtain ⟨t, hstep, hcharge⟩ := step_next_charges go.2
      rw [executeLoop_steps go.1 go.2 hstep]
      exact ih t (by push_cast at enough; omega)
    · rw [executeLoop_stops go]
      by_cases spent : s.budget ≤ 0
      · exact .inl spent
      · exact .inr fun running => go ⟨by omega, running⟩

theorem execute_ends (n : Int) (s : State) : (execute n s).1.budget ≤ 0 ∨ (execute n s).1.fault ≠ none :=
  executeLoop_ends n.toNat (s.setBudget n) (Int.self_le_toNat n)

/-- 10_state.md R28, which is how `execute` defines its value. -/
theorem execute_returned (n : Int) (s : State) : (execute n s).2 = n - (execute n s).1.budget := rfl

/-- A request that is not positive runs nothing (R68). -/
theorem execute_nonpos {n : Int} (h : n ≤ 0) (s : State) : execute n s = (s.setBudget n, 0) := by
  have stops : executeLoop n.toNat (s.setBudget n) = s.setBudget n :=
    executeLoop_stops (fun go => absurd go.1 (by simpa using h)) _
  simp [execute, stops]

/-! ### The obligation -/

/-- Settles O46: without a fault at the end the loop leaves no positive budget, so the difference of R28 is at least
the request. -/
theorem executeReturnsCyclesConsumed : Obligations.ExecuteReturnsCyclesConsumed := by
  intro n s
  refine ⟨execute_returned n s, fun _ running => ?_, fun nonpos => by rw [execute_nonpos nonpos]⟩
  have spent : (execute n s).1.budget ≤ 0 := (execute_ends n s).resolve_right (not_not_intro running)
  rw [execute_returned]
  omega

end Sys2Proof.Machine
end

section
/-! SUPPORT. The memory operations of 20_memory.md at and past the top of memory, what a write leaves at each address,
and the statements about them. -/

namespace Sys2Proof.Machine

/-- The addresses that exist are those up to 65535 (20_memory.md R34). -/
theorem lt_memSize_iff {addr : Nat} : addr < Config.memSize ↔ addr ≤ 65535 := Nat.lt_succ_iff

/-! ### Raising past the top of memory (R37) -/

theorem memRead_raises {addr : Nat} (h : ¬ addr < Config.memSize) (s : State) :
    memRead addr s = .raised (s.setFault (.outOfRangeAccess addr)) := if_neg h

theorem memWrite_raises {addr : Nat} (h : ¬ addr < Config.memSize) (v : Byte) (s : State) :
    memWrite addr v s = .raised (s.setFault (.outOfRangeAccess addr)) := if_neg h

/-! ### What a write leaves at each address -/

/-- One byte written. -/
theorem State.byteAt_write (s : State) (addr : Nat) (v : Byte) (b : Nat) :
    (s.setMem (Memory.write s.mem addr v)).byteAt b = if b = addr then v else s.byteAt b :=
  Memory.read_write s.mem addr v b

/-- A byte at `addr` and then one at `addr + 1`, as WriteWord stores them (R46). -/
theorem State.byteAt_write_pair (s : State) (addr : Nat) (lo hi : Byte) (b : Nat) :
    (s.setMem (Memory.write (Memory.write s.mem addr lo) (addr + 1) hi)).byteAt b =
      if b = addr + 1 then hi else if b = addr then lo else s.byteAt b := by
  rw [State.setMem_byteAt, Memory.read_write, Memory.read_write]
  rfl

/-! ### Initialise (R40) -/

theorem initialise_byteAt (s : State) (addr : Nat) : (initialise s).byteAt addr = 0x00#8 :=
  Memory.read_initialised addr

/-! ### The obligations -/

/-- Settles O8: the two branches of MemWrite, and what its one write leaves at each address. -/
theorem memWriteStoresOneByteOrFaults : Obligations.MemWriteStoresOneByteOrFaults := by
  intro addr v s
  refine ⟨fun le => ⟨_, memWrite_exists (lt_memSize_iff.2 le) v s, ?_, fun b hb => ?_, rfl⟩, fun gt =>
    memWrite_raises (lt_memSize_iff.not.2 (Nat.not_le_of_gt gt)) v s⟩
  · rw [State.byteAt_write, if_pos rfl]
  · rw [State.byteAt_write, if_neg hb]

/-- Settles O13: the second byte decides which branch WriteWord takes, before the first is written. -/
theorem writeWordStoresLittleEndianOrFaults : Obligations.WriteWordStoresLittleEndianOrFaults := by
  intro v addr s
  refine ⟨fun le => ⟨_, writeWord_exists (lt_memSize_iff.2 le) v s, ?_, ?_, fun b low high => ?_, rfl⟩, fun gt =>
    writeWord_raises (lt_memSize_iff.not.2 (Nat.not_le_of_gt gt)) v s⟩
  · rw [State.charge_byteAt, State.byteAt_write_pair, if_neg (by omega), if_pos rfl, lowByte_toNat]
  · rw [State.charge_byteAt, State.byteAt_write_pair, if_pos rfl, highByte_toNat]
  · rw [State.charge_byteAt, State.byteAt_write_pair, if_neg high, if_neg low]

/-- Settles O7: the two branches of MemRead. -/
theorem memReadReturnsByteOrFaults : Obligations.MemReadReturnsByteOrFaults := fun _ s =>
  ⟨fun le => memRead_exists (lt_memSize_iff.2 le) s,
    fun gt => memRead_raises (lt_memSize_iff.not.2 (Nat.not_le_of_gt gt)) s⟩

/-- Settles O10: `hostReset` is Initialise of a state with its other fields reset. -/
theorem initialiseZeroesEveryByte : Obligations.InitialiseZeroesEveryByte := fun s =>
  ⟨initialise_byteAt s, rfl, fun addr => initialise_byteAt _ addr⟩

/-- Settles O11: FetchWord joins the two bytes, and the address of the second is `PC + 1` modulo 2^16. -/
theorem fetchWordReadsLittleEndian : Obligations.FetchWordReadsLittleEndian := by
  intro s
  have next : (s.pc + 1).toNat = (s.pc.toNat + 1) % 65536 := by simp [BitVec.toNat_add]
  refine ⟨_, fetchWord_eq s, ?_⟩
  rw [wordOf_toNat, next]

end Sys2Proof.Machine
end

section
/-! SUPPORT. The length an opcode byte fixes, what the decoder takes from a list of bytes, and the statement about
both. -/

namespace Sys2Proof

/-! ### The length of an opcode byte (30_encoding.md R62) -/

theorem lengthOf_known {op : Byte} {o : Opcode} (h : decodeOpcode op = some o) : lengthOf op = o.format.length := by
  simp only [lengthOf, formatOf, h]

theorem lengthOf_unknown {op : Byte} (h : decodeOpcode op = none) : lengthOf op = 1 := by
  simp only [lengthOf, formatOf, h, Format.length]

/-- The unknown opcodes are the bytes of no entry of the map (R63). -/
theorem decodeOpcode_eq_none_iff (op : Byte) : decodeOpcode op = none ↔ ∀ o : Opcode, op ≠ o.byte := by
  simp only [Option.eq_none_iff_forall_ne_some, ne_eq, decodeOpcode_eq_some_iff]

/-- The length column of R56 over the opcode column of R60. -/
theorem lengthOf_eq (op : Byte) :
    lengthOf op = if op = 0x20#8 then 3 else if op = 0xA9#8 ∨ op = 0xA5#8 ∨ op = 0xB5#8 then 2 else 1 := by
  cases h : decodeOpcode op with
  | some o =>
    obtain rfl := (decodeOpcode_eq_some_iff op o).1 h
    cases o <;> decide
  | none =>
    have other := (decodeOpcode_eq_none_iff op).1 h
    have noJsr : op ≠ 0x20#8 := other .jsr
    have noLoad : ¬ (op = 0xA9#8 ∨ op = 0xA5#8 ∨ op = 0xB5#8) :=
      not_or.2 ⟨other .ldaImm, not_or.2 ⟨other .ldaZp, other .ldaZpX⟩⟩
    rw [lengthOf_unknown h, if_neg noJsr, if_neg noLoad]

/-! ### What the decoder takes -/

/-- A format's operand is all of its bytes but the opcode byte. -/
theorem takeOperand_takes {f : Format} {bytes rest : List Byte} {operand : Word}
    (h : takeOperand f bytes = some (operand, rest)) :
    rest = bytes.drop (f.length - 1) ∧ f.length ≤ bytes.length + 1 := by
  match f, bytes, h with
  | .op, _, rfl => exact ⟨rfl, by simp [Format.length]⟩
  | .imm8, _ :: _, rfl => exact ⟨rfl, by simp [Format.length]⟩
  | .zp8, _ :: _, rfl => exact ⟨rfl, by simp [Format.length]⟩
  | .abs16, _ :: _ :: _, rfl => exact ⟨rfl, by simp [Format.length]⟩

/-- When the decoder accepts, and with what: the map has the first byte, and the bytes after it hold the operand. -/
theorem decode_cons_eq_ok_iff (op : Byte) (after : List Byte) (i : Instr) (rest : List Byte) :
    decode (op :: after) = .ok (i, rest) ↔
      ∃ o operand, decodeOpcode op = some o ∧ takeOperand o.format after = some (operand, rest) ∧
        o.instr operand = i := by
  cases hop : decodeOpcode op with
  | none => simp [decode, hop]
  | some o =>
    cases htake : takeOperand o.format after with
    | none => simp [decode, hop, htake]
    | some taken => simp [decode, hop, htake, Prod.ext_iff, and_comm]

/-- The decoder takes as many bytes as the opcode byte says. -/
theorem decode_takes_lengthOf {op : Byte} {after : List Byte} {i : Instr} {rest : List Byte}
    (h : decode (op :: after) = .ok (i, rest)) :
    rest = (op :: after).drop (lengthOf op) ∧ lengthOf op ≤ (op :: after).length := by
  obtain ⟨o, operand, hop, htake, -⟩ := (decode_cons_eq_ok_iff op after i rest).1 h
  obtain ⟨hrest, hlen⟩ := takeOperand_takes htake
  rw [lengthOf_known hop, List.drop_cons o.format.one_le_length]
  exact ⟨hrest, hlen⟩

end Sys2Proof

namespace Sys2Proof.Machine

/-! ### The obligation -/

/-- Settles O4: the table of lengths, and the bytes the decoder takes. -/
theorem opcodeFixesInstructionLength : Obligations.OpcodeFixesInstructionLength :=
  ⟨lengthOf_eq, fun _ _ _ _ => decode_takes_lengthOf⟩

end Sys2Proof.Machine
end

section
/-! SUPPORT. Which step the machine takes, with the operand it fetches, in one inversion lemma; what a step charges; and
the loop of `execute` as a run of steps that its fuel does not cut short. -/

namespace Sys2Proof

/-! ### The cost of an opcode byte (70_reset_and_hazards.md R124) -/

theorem instrCost_unknown {op : Byte} (h : decodeOpcode op = none) : instrCost op = 1 := by
  have other := (decodeOpcode_eq_none_iff op).1 h
  have noImm : op ≠ 0xA9#8 := other .ldaImm
  have noZp : op ≠ 0xA5#8 := other .ldaZp
  have noZpX : op ≠ 0xB5#8 := other .ldaZpX
  have noJsr : op ≠ 0x20#8 := other .jsr
  simp only [instrCost, if_neg noImm, if_neg noZp, if_neg noZpX, if_neg noJsr]

/-- No instruction costs more than JSR does. -/
theorem instrCost_le_six (op : Byte) : instrCost op ≤ 6 := by
  cases h : decodeOpcode op with
  | none => rw [instrCost_unknown h]; decide
  | some o =>
    obtain rfl := (decodeOpcode_eq_some_iff op o).1 h
    cases o <;> decide

end Sys2Proof

namespace Sys2Proof.Machine

/-! ### Which step is taken -/

/-- The operand that stands behind the opcode byte at PC, in the form of a format's operand (30_encoding.md R56). -/
def operandAt (f : Format) (s : State) : Word :=
  match f with
  | .op => 0
  | .imm8 => zext16 (s.byteAt (s.pc + 1).toNat)
  | .zp8 => zext16 (s.byteAt (s.pc + 1).toNat)
  | .abs16 => wordOf (s.byteAt (s.pc + 1 + 1).toNat) (s.byteAt (s.pc + 1).toNat)

/-- The operand fetch that follows the opcode fetch finds that operand. -/
theorem fetchOperand_after_opcode (f : Format) (s : State) :
    fetchOperand f ((s.setPc (s.pc + 1)).charge 1) = .done (operandAt f s) (pastInstr f.length s) := by
  rw [← pastInstr_eq_opcode_operand]
  cases f with
  | op => simp [fetchOperand, operandAt, Format.length, State.setPc, State.charge, State.setBudget]
  | imm8 => rw [fetchOperand, fetchByte_eq]; rfl
  | zp8 => rw [fetchOperand, fetchByte_eq]; rfl
  | abs16 => exact fetchWord_eq _

/-- `step_known` with the operand named. -/
theorem step_known_operandAt {s : State} {o : Opcode} (running : s.fault = none)
    (h : decodeOpcode (opcodeAt s) = some o) :
    step s = exec (o.instr (operandAt o.format s)) (pastInstr o.format.length s) := by
  simp only [step, running, fetchInstr_known h, fetchOperand_after_opcode, Prim.andThen_done]

/-- A machine with a fault set takes no step. -/
theorem step_next_running {s t : State} (h : step s = .next t) : s.fault = none := by
  cases hf : s.fault with
  | none => rfl
  | some f => simp [step, hf] at h

/-- Everything a step that goes on can be: the report of an unknown opcode, or the instruction at PC run past its
bytes (40_fetch_decode_dispatch.md R70 to R74). -/
theorem step_next_cases {s t : State} (h : step s = .next t) :
    (decodeOpcode (opcodeAt s) = none ∧
      t = ((s.setPc (s.pc + 1)).charge 1).appendLog (.unknown s.pc (opcodeAt s))) ∨
    ∃ o, decodeOpcode (opcodeAt s) = some o ∧
      exec (o.instr (operandAt o.format s)) (pastInstr o.format.length s) = .next t := by
  have running := step_next_running h
  cases hop : decodeOpcode (opcodeAt s) with
  | none => exact .inl ⟨rfl, Host.Outcome.next.inj (h.symm.trans (step_unknown running hop))⟩
  | some o => exact .inr ⟨o, rfl, (step_known_operandAt running hop).symm.trans h⟩

/-! ### What a step charges -/

/-- Where an instruction completes, the fetch of its bytes and `exec` charge its cost between them (R124). -/
theorem exec_charges_instrCost {o : Opcode} {operand : Word} {s t : State}
    (h : exec (o.instr operand) s = .next t) (completed : t.fault = none) :
    t.budget + instrCost o.byte = s.budget + o.format.length := by
  cases o with
  | ldaImm =>
    obtain rfl := Host.Outcome.next.inj ((exec_ldaImm _ s).symm.trans h)
    rfl
  | ldaZp =>
    obtain rfl := Host.Outcome.next.inj ((exec_ldaZp _ s).symm.trans h)
    change s.budget - 1 + 3 = s.budget + 2
    omega
  | ldaZpX =>
    obtain rfl := Host.Outcome.next.inj ((exec_ldaZpX _ s).symm.trans h)
    change s.budget - 1 - 1 + 4 = s.budget + 2
    omega
  | jsr =>
    by_cases slot : stackAddress s + 1 < Config.memSize
    · obtain rfl := Host.Outcome.next.inj ((exec_jsr_writes slot _).symm.trans h)
      change s.budget - 2 - 1 + 6 = s.budget + 3
      omega
    · obtain rfl := Host.Outcome.next.inj ((exec_jsr_raises slot _).symm.trans h)
      cases completed

/-- A step that completes charges exactly the cost of the opcode at PC (R124). -/
theorem step_charges_instrCost {s t : State} (h : step s = .next t) (completed : t.fault = none) :
    t.budget = s.budget - instrCost (opcodeAt s) := by
  rcases step_next_cases h with ⟨hop, rfl⟩ | ⟨o, hop, hexec⟩
  · rw [instrCost_unknown hop]
    rfl
  · have total := exec_charges_instrCost hexec completed
    have fetched : (pastInstr o.format.length s).budget = s.budget - o.format.length := rfl
    rw [(decodeOpcode_eq_some_iff _ o).1 hop]
    omega

/-- Every step that goes on charges at least one cycle (R77). -/
theorem step_next_charges_one {s t : State} (h : step s = .next t) : t.budget + 1 ≤ s.budget := by
  obtain ⟨u, hstep, hcharge⟩ := step_next_charges (step_next_running h)
  obtain rfl := Host.Outcome.next.inj (h.symm.trans hstep)
  exact hcharge

/-! ### The loop of `execute` -/

/-- Any two amounts of fuel that cover the budget take the loop to the same end, because every round charges at least
one cycle (R77). -/
theorem executeLoop_fuel_irrelevant {s : State} {a b : Nat} (ha : s.budget ≤ a) (hb : s.budget ≤ b) :
    executeLoop a s = executeLoop b s := by
  induction a generalizing b s with
  | zero =>
    have spent : ¬ (0 < s.budget ∧ s.fault = none) := by omega
    rw [executeLoop_stops spent, executeLoop_stops spent]
  | succ a ih =>
    by_cases go : 0 < s.budget ∧ s.fault = none
    · obtain ⟨t, hstep, hcharge⟩ := step_next_charges go.2
      obtain ⟨b, rfl⟩ : ∃ b', b = b' + 1 := ⟨b - 1, by omega⟩
      rw [executeLoop_steps go.1 go.2 hstep, executeLoop_steps go.1 go.2 hstep]
      exact ih (by omega) (by omega)
    · rw [executeLoop_stops go, executeLoop_stops go]

/-- A request made of a faulted machine runs nothing (R68). -/
theorem execute_faulted {s : State} (h : s.fault ≠ none) (n : Int) : execute n s = (s.setBudget n, 0) := by
  have stops : executeLoop n.toNat (s.setBudget n) = s.setBudget n :=
    executeLoop_stops (s := s.setBudget n) (fun go => h go.2) _
  simp [execute, stops]

/-- The end of `execute` is the end of `execute` after its first step, on the budget that step leaves (R68). -/
theorem execute_step {n : Int} {s t : State} (positive : 0 < n) (h : step (s.setBudget n) = .next t) :
    (execute n s).1 = (execute t.budget t).1 := by
  have charged : t.budget + 1 ≤ n := step_next_charges_one h
  obtain ⟨fuel, hfuel⟩ : ∃ fuel, n.toNat = fuel + 1 := ⟨n.toNat - 1, by omega⟩
  calc executeLoop n.toNat (s.setBudget n)
      = executeLoop fuel t := by rw [hfuel, executeLoop_steps positive (step_next_running h) h]
    _ = executeLoop t.budget.toNat t := executeLoop_fuel_irrelevant (by omega) (Int.self_le_toNat _)

/-- The loop of `execute` is a run of at most `fuel` steps, each taken with the budget positive and no fault set. -/
theorem executeLoop_is_run (fuel : Nat) (s : State) :
    ∃ k ≤ fuel, Host.Core.run core k s = .next (executeLoop fuel s) ∧
      ∀ j < k, ∃ u : State, Host.Core.run core j s = .next u ∧ 0 < u.budget ∧ u.fault = none := by
  induction fuel generalizing s with
  | zero => exact ⟨0, le_refl 0, rfl, fun j hj => absurd hj (Nat.not_lt_zero j)⟩
  | succ fuel ih =>
    by_cases go : 0 < s.budget ∧ s.fault = none
    · obtain ⟨t, hstep, -⟩ := step_next_charges go.2
      obtain ⟨k, hk, hrun, before⟩ := ih t
      refine ⟨k + 1, by omega, ?_, fun j hj => ?_⟩
      · rw [core_run_succ hstep, executeLoop_steps go.1 go.2 hstep, hrun]
      · cases j with
        | zero => exact ⟨s, rfl, go⟩
        | succ j =>
          obtain ⟨u, hu, hgo⟩ := before j (by omega)
          exact ⟨u, (core_run_succ hstep j).trans hu, hgo⟩
    · rw [executeLoop_stops go]
      exact ⟨0, Nat.zero_le _, rfl, fun j hj => absurd hj (Nat.not_lt_zero j)⟩

/-- The loop of `execute` takes no step, or its last step is from a positive budget to the state it ends in. -/
theorem executeLoop_last_step (fuel : Nat) (s : State) :
    executeLoop fuel s = s ∨ ∃ u : State, 0 < u.budget ∧ step u = .next (executeLoop fuel s) := by
  induction fuel generalizing s with
  | zero => exact .inl rfl
  | succ fuel ih =>
    by_cases go : 0 < s.budget ∧ s.fault = none
    · obtain ⟨t, hstep, -⟩ := step_next_charges go.2
      rw [executeLoop_steps go.1 go.2 hstep]
      rcases ih t with unchanged | last
      · exact .inr ⟨s, go.1, unchanged.symm ▸ hstep⟩
      · exact .inr last
    · exact .inl (executeLoop_stops go _)

/-! ### The obligations -/

/-- Settles O47: the two ways the loop runs nothing, and one round of it with the fuel it leaves. -/
theorem executeIsTheWhileLoop : Obligations.ExecuteIsTheWhileLoop := by
  intro n s
  refine ⟨fun nonpos => execute_nonpos nonpos s, fun faulted => ?_, fun positive running => ?_⟩
  · rw [execute_faulted faulted]
    exact ⟨rfl, rfl⟩
  · obtain ⟨t, hstep, -⟩ := step_next_charges (s := s.setBudget n) running
    refine ⟨t, hstep, Prod.ext (execute_step positive hstep) ?_⟩
    change (execute n s).2 = n - t.budget + (execute t.budget t).2
    rw [execute_returned, execute_returned, execute_step positive hstep]
    omega

/-- Settles O48: the run that the loop is, with the request itself for fuel. -/
theorem executeIsTheShortestRun : Obligations.ExecuteIsTheShortestRun := by
  refine ⟨fun _ _ => step_next_charges_one, fun n s _ => ?_⟩
  obtain ⟨k, hk, hrun, before⟩ := executeLoop_is_run n.toNat (s.setBudget n)
  exact ⟨k, by omega, hrun, execute_ends n s, before⟩

/-- Settles O49: the last step began with at least 1 cycle and charged its cost, which is at most 6. -/
theorem executeOvershootsByOneInstruction : Obligations.ExecuteOvershootsByOneInstruction := by
  intro n s positive completed
  have spent : (execute n s).1.budget ≤ 0 := (execute_ends n s).resolve_right (not_not_intro completed)
  have moved : (execute n s).1 ≠ s.setBudget n := fun same => by
    rw [same, State.setBudget_budget] at spent
    omega
  obtain ⟨u, hpos, hlast⟩ : ∃ u : State, 0 < u.budget ∧ step u = .next (execute n s).1 :=
    (executeLoop_last_step n.toNat (s.setBudget n)).resolve_left moved
  have cost := step_charges_instrCost hlast completed
  have := instrCost_le_six (opcodeAt u)
  rw [execute_returned]
  exact ⟨⟨u, hpos, hlast, by omega⟩, by omega, spent, by omega, by omega⟩

end Sys2Proof.Machine
end

section
/-! SUPPORT. No step reads the budget: a charge before a step is a charge after it. And the statements about an
unknown opcode. -/

namespace Sys2Proof.Machine

/-! ### Charging before and after (40_fetch_decode_dispatch.md R78) -/

/-- Two charges add up. -/
theorem State.charge_charge (s : State) (m n : Int) : (s.charge m).charge n = s.charge (m + n) := by
  simp [State.charge, State.setBudget, Int.sub_sub]

theorem State.charge_comm (s : State) (m n : Int) : (s.charge m).charge n = (s.charge n).charge m := by
  rw [State.charge_charge, State.charge_charge, Int.add_comm]

theorem State.charge_setPc (s : State) (n : Int) (v : Word) : (s.charge n).setPc v = (s.setPc v).charge n := rfl

theorem State.charge_setMem (s : State) (n : Int) (m : Memory) : (s.charge n).setMem m = (s.setMem m).charge n := rfl

theorem State.charge_appendLog (s : State) (n : Int) (r : LogRecord) :
    (s.charge n).appendLog r = (s.appendLog r).charge n := rfl

theorem pastInstr_charge (k : Nat) (s : State) (n : Int) :
    pastInstr k (s.charge n) = (pastInstr k s).charge n :=
  State.charge_comm (s.setPc (s.pc + BitVec.ofNat 16 k)) n k

/-- What an instruction does is the same after a charge of `n` cycles, and leaves `n` cycles less. -/
theorem exec_charge {i : Instr} {s t : State} (h : exec i s = .next t) (n : Int) :
    exec i (s.charge n) = .next (t.charge n) := by
  cases i with
  | ldaImm imm8 =>
    obtain rfl := Host.Outcome.next.inj ((exec_ldaImm imm8 s).symm.trans h)
    rfl
  | ldaZp zp8 =>
    obtain rfl := Host.Outcome.next.inj ((exec_ldaZp zp8 s).symm.trans h)
    rw [exec_ldaZp, State.charge_comm]
    rfl
  | ldaZpX zp8 =>
    obtain rfl := Host.Outcome.next.inj ((exec_ldaZpX zp8 s).symm.trans h)
    rw [exec_ldaZpX, State.charge_comm s, State.charge_comm (s.charge 1)]
    rfl
  | jsr addr =>
    by_cases slot : stackAddress s + 1 < Config.memSize
    · obtain rfl := Host.Outcome.next.inj ((exec_jsr_writes slot addr).symm.trans h)
      rw [exec_jsr_writes (s := s.charge n) slot, State.charge_setMem, State.charge_comm _ n 2,
        State.charge_setPc _ n, State.charge_comm _ n 1]
      rfl
    · obtain rfl := Host.Outcome.next.inj ((exec_jsr_raises slot addr).symm.trans h)
      exact exec_jsr_raises (s := s.charge n) slot addr

/-- The same of a whole step: opcode, operand and meaning are read from registers and memory alone. -/
theorem step_charge {s t : State} (h : step s = .next t) (n : Int) : step (s.charge n) = .next (t.charge n) := by
  have running : (s.charge n).fault = none := step_next_running (s := s) h
  rcases step_next_cases h with ⟨hop, rfl⟩ | ⟨o, hop, hexec⟩
  · rw [step_unknown running hop, State.charge_setPc, State.charge_comm _ n 1, State.charge_appendLog _ n]
    rfl
  · rw [step_known_operandAt running hop, pastInstr_charge]
    exact exec_charge hexec n

/-! ### The obligations -/

/-- Settles O35: a budget changed by `d` is a charge of `-d`. -/
theorem stepIgnoresTheBudget : Obligations.StepIgnoresTheBudget := by
  intro s t d h
  have charged (u : State) : { u with budget := u.budget + d } = u.charge (-d) := by
    simp [State.charge, State.setBudget]
  rw [charged s, charged t]
  exact step_charge h (-d)

/-- Settles O26: a byte other than the four of R60 is in no row of the opcode map. -/
theorem stepUnknownOpcode : Obligations.StepUnknownOpcode := by
  intro s running noImm noZp noZpX noJsr
  have unknown : decodeOpcode (opcodeAt s) = none := (decodeOpcode_eq_none_iff _).2 fun
    | .ldaImm => noImm
    | .ldaZp => noZp
    | .ldaZpX => noZpX
    | .jsr => noJsr
  exact step_unknown running unknown

/-- Settles O27: every field of the one state the handler can leave. -/
theorem unknownOpcodeFrame : Obligations.UnknownOpcodeFrame := by
  intro s t unknown h
  obtain rfl := Host.Outcome.next.inj ((step_unknown (step_next_running h) unknown).symm.trans h)
  have next : (s.pc + 1).toNat = (s.pc.toNat + 1) % 65536 := by simp [BitVec.toNat_add]
  exact ⟨rfl, rfl, rfl, rfl, rfl, rfl, fun _ => rfl, next, rfl⟩

end Sys2Proof.Machine
end

section
/-! SUPPORT. The state a Load-Accumulator instruction leaves, in one form for its three addressing modes; an `execute`
of exactly one instruction's cost; and the statements about the family (42_load_accumulator.md). -/

namespace Sys2Proof.Machine

/-! ### The flag computation in the numbers of R92 -/

theorem zeroOf_eq_decide (v : Byte) : zeroOf v = decide (v = 0x00#8) := rfl

theorem negativeOf_eq_decide (v : Byte) : negativeOf v = decide (128 ≤ v.toNat) := by
  rw [negativeOf_eq_msb, BitVec.msb_eq_decide]

/-! ### The state a load leaves (R88) -/

/-- PC past the two bytes, `cycles` charged, `v` in A, and Z and N of it. -/
def State.afterLoad (v : Byte) (cycles : Int) (s : State) : State :=
  setZN (((s.setPc (s.pc + 2)).charge cycles).setA v)

theorem State.afterLoad_eq (v : Byte) (cycles : Int) (s : State) :
    s.afterLoad v cycles =
      { s with
        a := v, flags := { s.flags with z := decide (v = 0x00#8), n := decide (128 ≤ v.toNat) },
        pc := s.pc + 2, budget := s.budget - cycles } := by
  rw [← zeroOf_eq_decide, ← negativeOf_eq_decide]
  rfl

/-! ### The step of each addressing mode -/

/-- The address of the byte after the opcode (30_encoding.md R55). -/
theorem State.pc_add_one_toNat (s : State) : (s.pc + 1).toNat = (s.pc.toNat + 1) % 65536 := by
  simp [BitVec.toNat_add]

/-- The zero-page address of R83. -/
theorem zeroPageAddr_toNat (zp : Byte) : (zeroPageAddr zp).toNat = zp.toNat := zext16_toNat zp

/-- The indexed zero-page address of R84: the sum wraps inside the zero page. -/
theorem zeroPageXAddr_toNat (zp x : Byte) : (zeroPageXAddr zp x).toNat = (zp.toNat + x.toNat) % 256 := by
  rw [zeroPageXAddr, zext16_toNat, BitVec.toNat_add]

/-- The fetch of an instruction's bytes and a charge of its meaning are one charge. -/
theorem pastInstr_then_charge (k : Nat) (s : State) (n : Int) :
    (pastInstr k s).charge n = (s.setPc (s.pc + BitVec.ofNat 16 k)).charge (k + n) :=
  State.charge_charge (s.setPc (s.pc + BitVec.ofNat 16 k)) k n

theorem step_ldaImm {s : State} (running : s.fault = none) (h : opcodeAt s = 0xA9#8) :
    step s = .next (s.afterLoad (s.byteAt ((s.pc.toNat + 1) % 65536)) 2) := by
  rw [step_known_operandAt running (h ▸ decodeOpcode_ldaImm), Opcode.instr, exec_ldaImm, ← s.pc_add_one_toNat]
  simp only [operandAt, Opcode.format, lowByte_zext16]
  rfl

theorem step_ldaZp {s : State} (running : s.fault = none) (h : opcodeAt s = 0xA5#8) :
    step s = .next (s.afterLoad (s.byteAt (s.byteAt ((s.pc.toNat + 1) % 65536)).toNat) 3) := by
  rw [step_known_operandAt running (h ▸ decodeOpcode_ldaZp), Opcode.instr, exec_ldaZp, ← s.pc_add_one_toNat]
  simp only [operandAt, Opcode.format, lowByte_zext16, zeroPageAddr_toNat, Format.length, pastInstr_then_charge]
  rfl

theorem step_ldaZpX {s : State} (running : s.fault = none) (h : opcodeAt s = 0xB5#8) :
    step s = .next (s.afterLoad
      (s.byteAt (((s.byteAt ((s.pc.toNat + 1) % 65536)).toNat + s.x.toNat) % 256)) 4) := by
  rw [step_known_operandAt running (h ▸ decodeOpcode_ldaZpX), Opcode.instr, exec_ldaZpX, ← s.pc_add_one_toNat]
  simp only [operandAt, Opcode.format, lowByte_zext16, zeroPageXAddr_toNat, Format.length, State.charge_charge,
    pastInstr_then_charge]
  rfl

/-- The three modes at once, where neither the value nor the cost matters. -/
theorem step_load {s : State} (running : s.fault = none)
    (h : opcodeAt s = 0xA9#8 ∨ opcodeAt s = 0xA5#8 ∨ opcodeAt s = 0xB5#8) :
    ∃ v cycles, step s = .next (s.afterLoad v cycles) := by
  rcases h with imm | zp | zpX
  · exact ⟨_, _, step_ldaImm running imm⟩
  · exact ⟨_, _, step_ldaZp running zp⟩
  · exact ⟨_, _, step_ldaZpX running zpX⟩

/-! ### An `execute` of one instruction's cost -/

/-- Where a step charges exactly the request, `execute` runs just that step, because the step does the same on any
budget (40_fetch_decode_dispatch.md R78). -/
theorem execute_exact_cost {s t : State} {n : Int} (positive : 0 < n) (h : step s = .next t)
    (cost : t.budget = s.budget - n) : execute n s = (t.setBudget 0, n) := by
  have before : s.charge (s.budget - n) = s.setBudget n := by simp [State.charge]
  have after : t.charge (s.budget - n) = t.setBudget 0 := by simp [State.charge, cost]
  have hstep : step (s.setBudget n) = .next (t.setBudget 0) := by
    rw [← before, ← after]
    exact step_charge h _
  have ends : (execute n s).1 = t.setBudget 0 := by
    rw [execute_step positive hstep, State.setBudget_budget, execute_nonpos (le_refl 0)]
    rfl
  refine Prod.ext ends ?_
  rw [execute_returned, ends, State.setBudget_budget, Int.sub_zero]

/-- A load step and the `execute` of its cost, with the state written out. -/
theorem step_and_execute_of_afterLoad {s : State} {v : Byte} {cycles : Int} (positive : 0 < cycles)
    (h : step s = .next (s.afterLoad v cycles)) :
    let t : State := { s with
      a := v, flags := { s.flags with z := decide (v = 0x00#8), n := decide (128 ≤ v.toNat) },
      pc := s.pc + 2, budget := s.budget - cycles }
    step s = .next t ∧ execute cycles s = ({ t with budget := 0 }, cycles) := by
  rw [State.afterLoad_eq] at h
  exact ⟨h, execute_exact_cost positive h rfl⟩

/-! ### What the other steps leave alone -/

/-- JSR writes neither A nor a flag, whether it raises or not (43_jump_to_subroutine.md R93). -/
theorem exec_jsr_keeps_a_flags {addr : Word} {s t : State} (h : exec (.jsr addr) s = .next t) :
    t.a = s.a ∧ t.flags = s.flags := by
  by_cases slot : stackAddress s + 1 < Config.memSize
  · obtain rfl := Host.Outcome.next.inj ((exec_jsr_writes slot addr).symm.trans h)
    exact ⟨rfl, rfl⟩
  · obtain rfl := Host.Outcome.next.inj ((exec_jsr_raises slot addr).symm.trans h)
    exact ⟨rfl, rfl⟩

/-- A step of any byte that is no load's opcode: an unknown opcode or JSR. -/
theorem step_no_load_keeps_a_flags {s t : State} (h : step s = .next t) (noImm : opcodeAt s ≠ 0xA9#8)
    (noZp : opcodeAt s ≠ 0xA5#8) (noZpX : opcodeAt s ≠ 0xB5#8) : t.a = s.a ∧ t.flags = s.flags := by
  rcases step_next_cases h with ⟨-, rfl⟩ | ⟨o, hop, hexec⟩
  · exact ⟨rfl, rfl⟩
  · have byte : opcodeAt s = o.byte := (decodeOpcode_eq_some_iff _ o).1 hop
    cases o with
    | ldaImm => exact absurd byte noImm
    | ldaZp => exact absurd byte noZp
    | ldaZpX => exact absurd byte noZpX
    | jsr => exact exec_jsr_keeps_a_flags (s := pastInstr 3 s) hexec

/-! ### The obligations -/

/-- Settles O22: the loaded value is the operand byte. -/
theorem stepLdaImmediate : Obligations.StepLdaImmediate := fun _ running h =>
  step_and_execute_of_afterLoad (by decide) (step_ldaImm running h)

/-- Settles O23: the loaded value is the byte that the operand addresses. -/
theorem stepLdaZeroPage : Obligations.StepLdaZeroPage := fun _ running h =>
  step_and_execute_of_afterLoad (by decide) (step_ldaZp running h)

/-- Settles O24: as for the zero page, at the indexed address. -/
theorem stepLdaZeroPageX : Obligations.StepLdaZeroPageX := fun _ running h =>
  step_and_execute_of_afterLoad (by decide) (step_ldaZpX running h)

/-- Settles O29: a load leaves Z and N as decisions about A, and 0 is below 128; any other step keeps A and the
flags. -/
theorem zeroAndNegativeFollowLoads : Obligations.ZeroAndNegativeFollowLoads := by
  intro s t h
  refine ⟨fun load => ?_, step_no_load_keeps_a_flags h⟩
  obtain ⟨v, cycles, hload⟩ := step_load (step_next_running h) load
  obtain rfl := Host.Outcome.next.inj (hload.symm.trans h)
  rw [State.afterLoad_eq]
  refine ⟨decide_eq_true_iff, decide_eq_true_iff, ?_, rfl⟩
  rintro ⟨hz, hn⟩
  have zero : v = 0x00#8 := of_decide_eq_true hz
  have negative : 128 ≤ v.toNat := of_decide_eq_true hn
  exact absurd (zero ▸ negative) (by decide)

end Sys2Proof.Machine
end

section
/-! SUPPORT. The state a JSR leaves, with and without its two stack bytes; an `execute` on another budget and up to a
fault; and the statements about the family (43_jump_to_subroutine.md). -/

namespace Sys2Proof.Machine

/-! ### The stack slot and the return address (R93, R94) -/

/-- The two stack bytes exist for every SP but 0xFFFF (60_exceptions.md R101). -/
theorem stackSlot_exists_iff (s : State) : stackAddress s + 1 < Config.memSize ↔ s.sp ≠ 0xFFFF#16 := by
  have top : s.sp = 0xFFFF#16 ↔ s.sp.toNat = 65535 := BitVec.toNat_inj.symm
  have bound := s.sp.isLt
  rw [lt_memSize_iff, stackAddress, ne_eq, top]
  omega

/-- The address of the last byte of the three (R94). -/
theorem returnAddress_pastInstr (s : State) : returnAddress (pastInstr 3 s) = s.pc + 2 := by
  simp only [returnAddress, pastInstr]
  bv_omega

/-- The address of the second byte after the opcode (30_encoding.md R55). -/
theorem State.pc_add_two_toNat (s : State) : (s.pc + 2).toNat = (s.pc.toNat + 2) % 65536 := by
  simp [BitVec.toNat_add]

/-- The target of a JSR at PC: the second byte after the opcode is its high byte (41_addressing_modes.md R85). -/
theorem operandAt_abs16_toNat (s : State) :
    (operandAt .abs16 s).toNat =
      (s.byteAt ((s.pc.toNat + 2) % 65536)).toNat * 256 + (s.byteAt ((s.pc.toNat + 1) % 65536)).toNat := by
  have second : s.pc + 1 + 1 = s.pc + 2 := BitVec.add_assoc ..
  rw [operandAt, wordOf_toNat, second, s.pc_add_two_toNat, s.pc_add_one_toNat]

/-! ### The states a JSR can leave -/

/-- `(PC0 + 2) mod 2^16` stored at SP, low byte first. -/
def State.withReturnAddress (s : State) : State :=
  s.setMem (Memory.write (Memory.write s.mem s.sp.toNat (lowByte (s.pc + 2))) (s.sp.toNat + 1) (highByte (s.pc + 2)))

/-- Where both stack bytes exist: the return address stored, PC at the target, 6 cycles charged. -/
def State.afterJsr (s : State) : State := (s.withReturnAddress.setPc (operandAt .abs16 s)).charge 6

/-- Where they do not: PC past the operand, 3 cycles charged, the fault of R97 recorded. -/
def State.afterJsrFault (s : State) : State :=
  ((s.setPc (s.pc + 3)).charge 3).setFault (.outOfRangeAccess 0x10000)

theorem State.afterJsr_byteAt (s : State) (b : Nat) :
    s.afterJsr.byteAt b =
      if b = s.sp.toNat + 1 then highByte (s.pc + 2) else if b = s.sp.toNat then lowByte (s.pc + 2)
      else s.byteAt b :=
  s.byteAt_write_pair s.sp.toNat (lowByte (s.pc + 2)) (highByte (s.pc + 2)) b

/-- The low byte of the return address at SP. -/
theorem State.afterJsr_byteAt_sp (s : State) :
    (s.afterJsr.byteAt s.sp.toNat).toNat = (s.pc.toNat + 2) % 65536 % 256 := by
  rw [State.afterJsr_byteAt, if_neg (by omega), if_pos rfl, lowByte_toNat, s.pc_add_two_toNat]

/-- The high byte of the return address at SP + 1. -/
theorem State.afterJsr_byteAt_sp_add_one (s : State) :
    (s.afterJsr.byteAt (s.sp.toNat + 1)).toNat = (s.pc.toNat + 2) % 65536 / 256 := by
  rw [State.afterJsr_byteAt, if_pos rfl, highByte_toNat, s.pc_add_two_toNat]

/-- Every other byte keeps its value. -/
theorem State.afterJsr_byteAt_other (s : State) {b : Nat} (low : b ≠ s.sp.toNat) (high : b ≠ s.sp.toNat + 1) :
    s.afterJsr.byteAt b = s.byteAt b := by
  rw [State.afterJsr_byteAt, if_neg high, if_neg low]

/-! ### The step of a JSR -/

theorem step_jsr_writes {s : State} (running : s.fault = none) (h : opcodeAt s = 0x20#8) (slot : s.sp ≠ 0xFFFF#16) :
    step s = .next s.afterJsr := by
  have exist : stackAddress (pastInstr 3 s) + 1 < Config.memSize := (stackSlot_exists_iff s).2 slot
  rw [step_known_operandAt running (h ▸ decodeOpcode_jsr), Opcode.instr]
  simp only [Opcode.format, Format.length, exec_jsr_writes exist, returnAddress_pastInstr]
  rw [State.charge_setPc, State.charge_charge]
  exact congrArg Host.Outcome.next (State.charge_charge (s.withReturnAddress.setPc (operandAt .abs16 s)) 3 3)

theorem step_jsr_raises {s : State} (running : s.fault = none) (h : opcodeAt s = 0x20#8) (top : s.sp = 0xFFFF#16) :
    step s = .next s.afterJsrFault := by
  have missing : ¬ stackAddress (pastInstr 3 s) + 1 < Config.memSize := fun exist =>
    (stackSlot_exists_iff s).1 exist top
  have address : stackAddress (pastInstr 3 s) + 1 = 0x10000 := congrArg (·.toNat + 1) top
  rw [step_known_operandAt running (h ▸ decodeOpcode_jsr), Opcode.instr]
  simp only [Opcode.format, Format.length, exec_jsr_raises missing, address]
  rfl

/-- JSR does not change SP, whether it raises or not (R95). -/
theorem step_jsr_keeps_sp {s t : State} (h : step s = .next t) (jsr : opcodeAt s = 0x20#8) : t.sp = s.sp := by
  have running := step_next_running h
  by_cases top : s.sp = 0xFFFF#16
  · obtain rfl := Host.Outcome.next.inj ((step_jsr_raises running jsr top).symm.trans h)
    rfl
  · obtain rfl := Host.Outcome.next.inj ((step_jsr_writes running jsr top).symm.trans h)
    rfl

/-! ### An `execute` that a fault ends -/

/-- Where a step records a fault, every `execute` with a positive request runs just that step (R68, R100). -/
theorem execute_faulting_step {s t : State} {n : Int} (positive : 0 < n) (h : step s = .next t)
    (faulted : t.fault ≠ none) :
    execute n s = (t.setBudget (n - (s.budget - t.budget)), s.budget - t.budget) := by
  have before : s.charge (s.budget - n) = s.setBudget n := by simp [State.charge]
  have hstep : step (s.setBudget n) = .next (t.charge (s.budget - n)) := before ▸ step_charge h _
  have left : (t.charge (s.budget - n)).budget = n - (s.budget - t.budget) := by
    rw [State.charge_budget]
    omega
  have ends : (execute n s).1 = t.setBudget (n - (s.budget - t.budget)) := by
    rw [execute_step positive hstep, execute_faulted (s := t.charge (s.budget - n)) faulted, left]
    rfl
  refine Prod.ext ends ?_
  rw [execute_returned, ends, State.setBudget_budget, Int.sub_sub_self]

/-! ### The obligations -/

/-- Settles O25: SP decides which of the two states the step leaves; an `execute` of 6 ends with the budget spent, and
any other at the fault. -/
theorem stepJsr : Obligations.StepJsr := by
  intro s running jsr
  refine ⟨fun slot => ?_, fun top => ?_⟩
  · have hstep := step_jsr_writes running jsr slot
    exact ⟨s.afterJsr, hstep, execute_exact_cost (by decide) hstep rfl, operandAt_abs16_toNat s, s.afterJsr_byteAt_sp,
      s.afterJsr_byteAt_sp_add_one, fun _ => s.afterJsr_byteAt_other, rfl⟩
  · have hstep := step_jsr_raises running jsr top
    have cost : s.budget - s.afterJsrFault.budget = 3 := Int.sub_sub_self s.budget 3
    refine ⟨hstep, fun n positive => ?_⟩
    rw [execute_faulting_step positive hstep (Option.some_ne_none _), cost]
    rfl

/-- Settles O39: the second JSR stores its return address at the SP that the first left alone. -/
theorem secondJsrOverwritesTheReturnAddress : Obligations.SecondJsrOverwritesTheReturnAddress := by
  intro s t u first hfirst second hsecond
  have kept : t.sp = s.sp := step_jsr_keeps_sp hfirst first
  refine ⟨kept, (step_jsr_keeps_sp hsecond second).trans kept, ?_⟩
  rw [← kept]
  intro slot
  obtain rfl := Host.Outcome.next.inj
    ((step_jsr_writes (step_next_running hsecond) second slot).symm.trans hsecond)
  exact ⟨t.afterJsr_byteAt_sp, t.afterJsr_byteAt_sp_add_one⟩

end Sys2Proof.Machine
end

section
/-! SUPPORT. What any step leaves in SP and in the fault field; and the statement about where a fault is recorded
(60_exceptions.md R101). -/

namespace Sys2Proof.Machine

/-- A step of any byte but JSR's: an unknown opcode or a load, neither of which writes SP or raises. -/
theorem step_no_jsr_keeps_sp_fault {s t : State} (h : step s = .next t) (noJsr : opcodeAt s ≠ 0x20#8) :
    t.sp = s.sp ∧ t.fault = s.fault := by
  rcases step_next_cases h with ⟨-, rfl⟩ | ⟨o, hop, hexec⟩
  · exact ⟨rfl, rfl⟩
  · have byte : opcodeAt s = o.byte := (decodeOpcode_eq_some_iff _ o).1 hop
    have load : opcodeAt s = 0xA9#8 ∨ opcodeAt s = 0xA5#8 ∨ opcodeAt s = 0xB5#8 := by
      cases o with
      | ldaImm => exact .inl byte
      | ldaZp => exact .inr (.inl byte)
      | ldaZpX => exact .inr (.inr byte)
      | jsr => exact absurd byte noJsr
    obtain ⟨v, cycles, hload⟩ := step_load (step_next_running h) load
    obtain rfl := Host.Outcome.next.inj (hload.symm.trans h)
    exact ⟨rfl, rfl⟩

/-- No step writes SP. -/
theorem step_next_sp {s t : State} (h : step s = .next t) : t.sp = s.sp := by
  by_cases jsr : opcodeAt s = 0x20#8
  · exact step_jsr_keeps_sp h jsr
  · exact (step_no_jsr_keeps_sp_fault h jsr).1

/-- The fault field after a step that goes on, in one equation: the opcode and SP decide it. -/
theorem step_next_fault {s t : State} (h : step s = .next t) :
    t.fault = if opcodeAt s = 0x20#8 ∧ s.sp = 0xFFFF#16 then some (.outOfRangeAccess 0x10000) else none := by
  have running := step_next_running h
  by_cases jsr : opcodeAt s = 0x20#8
  · by_cases top : s.sp = 0xFFFF#16
    · obtain rfl := Host.Outcome.next.inj ((step_jsr_raises running jsr top).symm.trans h)
      rw [if_pos ⟨jsr, top⟩]
      rfl
    · obtain rfl := Host.Outcome.next.inj ((step_jsr_writes running jsr top).symm.trans h)
      rw [if_neg fun both => top both.2]
      exact running
  · rw [if_neg fun both => jsr both.1]
    exact (step_no_jsr_keeps_sp_fault h jsr).2.trans running

/-! ### The obligation -/

/-- Settles O32: the fault a step leaves is decided by the opcode and SP, and no step writes SP. -/
theorem onlyJsrAtTopOfMemoryFaults : Obligations.OnlyJsrAtTopOfMemoryFaults := by
  refine ⟨fun s t h => ?_, hostReset_sp⟩
  rw [step_next_fault h]
  by_cases raises : opcodeAt s = 0x20#8 ∧ s.sp = 0xFFFF#16
  · rw [if_pos raises]
    exact ⟨iff_of_true (Option.some_ne_none _) raises, fun _ => rfl, step_next_sp h⟩
  · rw [if_neg raises]
    exact ⟨iff_of_false (fun faulted => faulted rfl) raises, fun faulted => absurd rfl faulted, step_next_sp h⟩

end Sys2Proof.Machine
end

section
/-! SUPPORT. The state that reset leaves, in one equation; and the statements about the values of reset and the cost of an
instruction (70_reset_and_hazards.md R113, R114, R124). -/

namespace Sys2Proof.Machine

/-- Of the state before it, reset keeps the budget alone (R116). -/
theorem hostReset_eq (s : State) : hostReset s = { State.reset with budget := s.budget } := rfl

/-! ### The obligations -/

/-- Settles O31: `instrCost` is the table of R124. -/
theorem stepChargesItsCost : Obligations.StepChargesItsCost := fun _ _ h completed =>
  step_charges_instrCost h completed

/-- Settles O43: every value but the budget is a field of `State.reset`, whose memory is the one Initialise leaves. -/
theorem resetSetsEveryValue : Obligations.ResetSetsEveryValue := by
  intro s
  rw [hostReset_eq]
  exact ⟨rfl, rfl, rfl, rfl, rfl, rfl, rfl, rfl, rfl, rfl, rfl, rfl, Memory.read_initialised, rfl, rfl, rfl, rfl⟩

end Sys2Proof.Machine
end

section
/-! SUPPORT. The decoder and the encoder undo each other; and the statements about the encoding (30_encoding.md). -/

namespace Sys2Proof

/-! ### The operand of a format, taken and put back -/

/-- What the decoder makes of an opcode and the operand it takes is encoded by the bytes it took. -/
theorem encode_instr_of_takeOperand {o : Opcode} {after rest : List Byte} {operand : Word}
    (h : takeOperand o.format after = some (operand, rest)) : encode (o.instr operand) ++ rest = o.byte :: after := by
  match o, after, h with
  | .ldaImm, b :: _, rfl => simp [Opcode.instr, encode, Opcode.byte]
  | .ldaZp, b :: _, rfl => simp [Opcode.instr, encode, Opcode.byte]
  | .ldaZpX, b :: _, rfl => simp [Opcode.instr, encode, Opcode.byte]
  | .jsr, lo :: hi :: _, rfl => simp [Opcode.instr, encode, Opcode.byte]

/-- As many bytes as a format's operand has are an operand with nothing left over. -/
theorem takeOperand_exact {f : Format} {bytes : List Byte} (h : bytes.length + 1 = f.length) :
    ∃ operand, takeOperand f bytes = some (operand, []) := by
  match f, bytes, h with
  | .op, [], _ => exact ⟨_, rfl⟩
  | .imm8, [_], _ => exact ⟨_, rfl⟩
  | .zp8, [_], _ => exact ⟨_, rfl⟩
  | .abs16, [_, _], _ => exact ⟨_, rfl⟩

/-! ### Decoding and encoding -/

theorem decode_encode_append (i : Instr) (rest : List Byte) : decode (encode i ++ rest) = .ok (i, rest) := by
  cases i with
  | ldaImm imm8 =>
    exact (decode_cons_eq_ok_iff ..).2 ⟨.ldaImm, zext16 imm8, decodeOpcode_ldaImm, rfl, by simp [Opcode.instr]⟩
  | ldaZp zp8 =>
    exact (decode_cons_eq_ok_iff ..).2 ⟨.ldaZp, zext16 zp8, decodeOpcode_ldaZp, rfl, by simp [Opcode.instr]⟩
  | ldaZpX zp8 =>
    exact (decode_cons_eq_ok_iff ..).2 ⟨.ldaZpX, zext16 zp8, decodeOpcode_ldaZpX, rfl, by simp [Opcode.instr]⟩
  | jsr addr =>
    refine (decode_cons_eq_ok_iff ..).2 ⟨.jsr, addr, decodeOpcode_jsr, ?_, rfl⟩
    simp [takeOperand, Opcode.format]

theorem encode_append_of_decode {bytes : List Byte} {i : Instr} {rest : List Byte}
    (h : decode bytes = .ok (i, rest)) : encode i ++ rest = bytes := by
  cases bytes with
  | nil => cases h
  | cons op after =>
    obtain ⟨o, operand, hop, htake, rfl⟩ := (decode_cons_eq_ok_iff op after i rest).1 h
    rw [(decodeOpcode_eq_some_iff op o).1 hop]
    exact encode_instr_of_takeOperand htake

/-! ### Well-formed lists of bytes -/

/-- Every encoding begins with a byte of the opcode map and is as long as that byte says (R62). -/
theorem encode_has_encodedLength (i : Instr) : Laws.EncodedLength.Statement i := by
  cases i with
  | ldaImm imm8 => exact Laws.EncodedLength.ldaImm imm8
  | ldaZp zp8 => exact Laws.EncodedLength.ldaZp zp8
  | ldaZpX zp8 => exact Laws.EncodedLength.ldaZpX zp8
  | jsr addr => exact Laws.EncodedLength.jsr addr

theorem wellFormedBytes_encode (i : Instr) : wellFormedBytes (encode i) = true := by
  obtain ⟨op, operands, hencode, known, hlength⟩ := encode_has_encodedLength i
  rw [hencode, List.length_cons] at hlength
  simp [hencode, wellFormedBytes, known, hlength]

theorem wellFormedBytes_cons_iff (op : Byte) (after : List Byte) :
    wellFormedBytes (op :: after) = true ↔ ∃ o, decodeOpcode op = some o ∧ after.length + 1 = o.format.length := by
  cases hop : decodeOpcode op with
  | none => simp [wellFormedBytes, hop]
  | some o => simp [wellFormedBytes, hop, lengthOf_known hop]

/-- A well-formed list of bytes decodes with nothing left over. -/
theorem decode_of_wellFormedBytes {bytes : List Byte} (h : wellFormedBytes bytes = true) :
    ∃ i, decode bytes = .ok (i, []) := by
  cases bytes with
  | nil => cases h
  | cons op after =>
    obtain ⟨o, hop, hlength⟩ := (wellFormedBytes_cons_iff op after).1 h
    obtain ⟨operand, htake⟩ := takeOperand_exact hlength
    exact ⟨o.instr operand, (decode_cons_eq_ok_iff ..).2 ⟨o, operand, hop, htake, rfl⟩⟩

/-! ### The opcode map as a table of bytes -/

/-- The map of R60, entry by entry. -/
theorem decodeOpcode_eq (op : Byte) :
    decodeOpcode op = if op = 0xA9#8 then some .ldaImm else if op = 0xA5#8 then some .ldaZp
      else if op = 0xB5#8 then some .ldaZpX else if op = 0x20#8 then some .jsr else none := by
  cases h : decodeOpcode op with
  | some o =>
    obtain rfl := (decodeOpcode_eq_some_iff op o).1 h
    cases o <;> rfl
  | none =>
    have other := (decodeOpcode_eq_none_iff op).1 h
    have noImm : op ≠ 0xA9#8 := other .ldaImm
    have noZp : op ≠ 0xA5#8 := other .ldaZp
    have noZpX : op ≠ 0xB5#8 := other .ldaZpX
    have noJsr : op ≠ 0x20#8 := other .jsr
    rw [if_neg noImm, if_neg noZp, if_neg noZpX, if_neg noJsr]

theorem decode_unknown {op : Byte} (h : decodeOpcode op = none) (after : List Byte) :
    decode (op :: after) = .error (.unknownOpcode op) := by
  simp only [decode, h]

end Sys2Proof

namespace Sys2Proof.Machine

/-! ### The obligations -/

/-- Settles O1: one case per instruction, its opcode byte looked up and its operand taken from the bytes behind it. -/
theorem decodeEncodeRoundTrip : Obligations.DecodeEncodeRoundTrip := decode_encode_append

/-- Settles O2: the opcode byte and the operand bytes that the decoder took are what the encoder writes. -/
theorem decodedBytesReencode : Obligations.DecodedBytesReencode := fun _ _ _ => encode_append_of_decode

/-- Settles O3: well-formed bytes decode with nothing left over, and what decodes is an encoding. -/
theorem wellFormedBytesAreEncodings : Obligations.WellFormedBytesAreEncodings := by
  intro bytes
  constructor
  · intro h
    obtain ⟨i, hdecode⟩ := decode_of_wellFormedBytes h
    exact ⟨i, by rw [← encode_append_of_decode hdecode, List.append_nil]⟩
  · rintro ⟨i, rfl⟩
    exact wellFormedBytes_encode i

/-- Settles O5: the table of the map, whose last branch is the unknown opcodes. -/
theorem opcodeMapHasFourEntries : Obligations.OpcodeMapHasFourEntries := by
  intro op after
  refine ⟨decodeOpcode_eq op, fun ⟨noImm, noZp, noZpX, noJsr⟩ => decode_unknown ?_ after⟩
  rw [decodeOpcode_eq, if_neg noImm, if_neg noZp, if_neg noZpX, if_neg noJsr]

/-- Settles O6: each word is an encoding, and the decoder gives its instruction back. -/
theorem writtenOutWordsDecode : Obligations.WrittenOutWordsDecode :=
  ⟨decode_encode_append (.ldaImm 0x84#8) [], decode_encode_append (.ldaZp 0x42#8) [],
    decode_encode_append (.ldaZpX 0x80#8) [], decode_encode_append (.jsr 0x1234#16) []⟩

end Sys2Proof.Machine
end

section
/-! SUPPORT. A canonical memory is fixed by what it reads; and the statement about it (20_memory.md R34, log 8). -/

namespace Sys2Proof.Machine

/-! ### What a memory lists and what it reads -/

/-- Whatever a read finds, other than the byte of an unlisted address, is listed. -/
theorem Memory.mem_of_read {mem : Memory} {addr : Nat} (h : Memory.read mem addr ≠ Config.unlistedByte) :
    (addr, Memory.read mem addr) ∈ mem := by
  induction mem with
  | nil => exact absurd rfl h
  | cons head rest ih =>
    rw [Memory.read] at h ⊢
    split at h
    · next here => simp [← here]
    · next elsewhere =>
      rw [if_neg elsewhere]
      exact List.mem_cons_of_mem _ (ih h)

/-- Where addresses rise, a read finds whatever is listed. -/
theorem Memory.read_of_mem {mem : Memory} (sorted : mem.Pairwise fun p q => p.1 < q.1) {cell : Host.Cell}
    (h : cell ∈ mem) : Memory.read mem cell.1 = cell.2 := by
  induction mem with
  | nil => cases h
  | cons head rest ih =>
    obtain ⟨above, sorted'⟩ := List.pairwise_cons.1 sorted
    rcases List.mem_cons.1 h with rfl | later
    · simp [Memory.read]
    · rw [Memory.read, if_neg (above cell later).ne]
      exact ih sorted' later

/-- A canonical memory that reads the same as another lists nothing the other does not list. -/
theorem Memory.mem_of_same_reads {m m' : Memory} (h : Memory.wf m)
    (same : ∀ addr, addr ≤ 65535 → Memory.read m addr = Memory.read m' addr) {cell : Host.Cell} (hc : cell ∈ m) :
    cell ∈ m' := by
  obtain ⟨sorted, listed⟩ := h
  obtain ⟨exist, differs⟩ := listed cell hc
  have found : Memory.read m' cell.1 = cell.2 :=
    (same cell.1 (lt_memSize_iff.1 exist)).symm.trans (Memory.read_of_mem sorted hc)
  have := Memory.mem_of_read (found ▸ differs)
  rwa [found] at this

/-! ### The obligation -/

/-- Settles O9: the two list the same cells, and a list in strictly rising order is fixed by its members. -/
theorem canonicalMemoriesWithEqualReadsAreEqual : Obligations.CanonicalMemoriesWithEqualReadsAreEqual := by
  intro m m' h h' same
  have antisymm : Std.Antisymm fun p q : Host.Cell => p.1 < q.1 := ⟨fun _ _ lt gt => absurd gt lt.asymm⟩
  have irrefl : Std.Irrefl fun p q : Host.Cell => p.1 < q.1 := ⟨fun p => lt_irrefl p.1⟩
  exact List.Subset.antisymm_of_pairwise h.1 h'.1 (fun _ => Memory.mem_of_same_reads h same)
    fun _ => Memory.mem_of_same_reads h' fun addr le => (same addr le).symm

end Sys2Proof.Machine
end

section
/-! SUPPORT. The state that `exec` leaves, in one form for the three loads and two for JSR; and the statements about the
byte primitives and about `exec`. -/

namespace Sys2Proof.Machine

/-! ### ReadByte past the top of memory (20_memory.md R44) -/

theorem readByte_raises {addr : Nat} (h : ¬ addr < Config.memSize) (s : State) :
    readByte addr s = .raised (s.setFault (.outOfRangeAccess addr)) := by
  rw [readByte, memRead_raises h, Prim.andThen_raised]

/-! ### What a load leaves (42_load_accumulator.md R88) -/

/-- `v` in A, Z and N of it, and `cycles` charged. -/
def State.loaded (v : Byte) (cycles : Int) (s : State) : State := setZN ((s.charge cycles).setA v)

theorem State.loaded_eq (v : Byte) (cycles : Int) (s : State) :
    s.loaded v cycles =
      { s with
        a := v, flags := { s.flags with z := decide (v = 0x00#8), n := decide (128 ≤ v.toNat) },
        budget := s.budget - cycles } := by
  rw [← zeroOf_eq_decide, ← negativeOf_eq_decide]
  rfl

theorem exec_ldaImm_loaded (b : Byte) (s : State) : exec (.ldaImm b) s = .next (s.loaded b 0) := by
  rw [exec_ldaImm, State.loaded, State.charge, Int.sub_zero]
  rfl

theorem exec_ldaZp_loaded (b : Byte) (s : State) : exec (.ldaZp b) s = .next (s.loaded (s.byteAt b.toNat) 1) := by
  rw [exec_ldaZp, zeroPageAddr_toNat, State.loaded]

theorem exec_ldaZpX_loaded (b : Byte) (s : State) :
    exec (.ldaZpX b) s = .next (s.loaded (s.byteAt ((b.toNat + s.x.toNat) % 256)) 2) := by
  rw [exec_ldaZpX, zeroPageXAddr_toNat, State.charge_charge]
  rfl

/-! ### What JSR leaves (43_jump_to_subroutine.md R93) -/

/-- The return address stored at SP, PC at the target, and 3 cycles charged after those of the fetch. -/
def State.jumped (target : Word) (s : State) : State :=
  ((s.setMem (Memory.write (Memory.write s.mem s.sp.toNat (lowByte (s.pc - 1))) (s.sp.toNat + 1)
    (highByte (s.pc - 1)))).setPc target).charge 3

theorem exec_jsr_jumped {s : State} (slot : s.sp ≠ 0xFFFF#16) (target : Word) :
    exec (.jsr target) s = .next (s.jumped target) := by
  rw [exec_jsr_writes ((stackSlot_exists_iff s).2 slot), State.charge_setPc, State.charge_charge]
  rfl

theorem exec_jsr_top {s : State} (top : s.sp = 0xFFFF#16) (target : Word) :
    exec (.jsr target) s = .next (s.setFault (.outOfRangeAccess 0x10000)) := by
  have address : stackAddress s + 1 = 0x10000 := congrArg (·.toNat + 1) top
  rw [exec_jsr_raises fun exist => (stackSlot_exists_iff s).1 exist top, address]

theorem State.jumped_byteAt (target : Word) (s : State) (b : Nat) :
    (s.jumped target).byteAt b =
      if b = s.sp.toNat + 1 then highByte (s.pc - 1) else if b = s.sp.toNat then lowByte (s.pc - 1)
      else s.byteAt b :=
  s.byteAt_write_pair s.sp.toNat (lowByte (s.pc - 1)) (highByte (s.pc - 1)) b

/-- Every byte outside the stack slot keeps its value. -/
theorem State.jumped_byteAt_other (target : Word) (s : State) {b : Nat} (low : b ≠ s.sp.toNat)
    (high : b ≠ s.sp.toNat + 1) : (s.jumped target).byteAt b = s.byteAt b := by
  rw [State.jumped_byteAt, if_neg high, if_neg low]

/-! ### The obligations -/

/-- Settles O15: the state with the return address stored, read at its two addresses and at any other. -/
theorem jsrAnswersItsResult : Obligations.JsrAnswersItsResult := by
  intro target s slot
  refine ⟨s.jumped target, exec_jsr_jumped slot target, ?_, ?_, fun _ => s.jumped_byteAt_other target, rfl⟩
  · rw [State.jumped_byteAt, if_neg (by omega), if_pos rfl, lowByte_toNat]
  · rw [State.jumped_byteAt, if_pos rfl, highByte_toNat]

/-- Settles O17: every mode leaves a state of the one form `State.loaded`. -/
theorem loadsFrame : Obligations.LoadsFrame := by
  intro b i s t load h
  obtain ⟨v, cycles, hload⟩ : ∃ v cycles, exec i s = .next (s.loaded v cycles) := by
    rcases load with rfl | rfl | rfl
    · exact ⟨_, _, exec_ldaImm_loaded b s⟩
    · exact ⟨_, _, exec_ldaZp_loaded b s⟩
    · exact ⟨_, _, exec_ldaZpX_loaded b s⟩
  obtain rfl := Host.Outcome.next.inj (hload.symm.trans h)
  exact ⟨rfl, rfl, rfl, rfl, rfl, rfl, rfl, rfl, rfl, rfl, rfl, fun _ => rfl⟩

/-- Settles O18: SP decides which of the two states JSR leaves, and the faulted one keeps every byte. -/
theorem jsrFrame : Obligations.JsrFrame := by
  intro target s t h
  by_cases top : s.sp = 0xFFFF#16
  · obtain rfl := Host.Outcome.next.inj ((exec_jsr_top top target).symm.trans h)
    exact ⟨rfl, rfl, rfl, rfl, rfl, rfl, fun slot => absurd top slot, fun _ _ _ _ _ => rfl, fun _ _ => rfl⟩
  · obtain rfl := Host.Outcome.next.inj ((exec_jsr_jumped top target).symm.trans h)
    refine ⟨rfl, rfl, rfl, rfl, rfl, rfl, fun _ => rfl, ?_, fun isTop => absurd isTop top⟩
    rintro _ b rfl low high
    exact s.jumped_byteAt_other target low high

/-- Settles O12: the law of each primitive, with the two address computations in numbers. -/
theorem bytePrimitivesChargeTheirCycles : Obligations.BytePrimitivesChargeTheirCycles := by
  intro s
  refine ⟨fetchByte_eq s, fun addr le => ?_, fun addr gt => ?_, fun n => internal_eq n s, fun zp =>
    ⟨zeroPageAddr_toNat zp, zeroPageXAddr_toNat zp s.x⟩⟩
  · rw [readByte, memRead_exists (lt_memSize_iff.2 le)]
    rfl
  · exact readByte_raises (lt_memSize_iff.not.2 (Nat.not_le_of_gt gt)) s

/-- Settles O14: the loaded state of each mode, written out. -/
theorem loadsAnswerTheirResult : Obligations.LoadsAnswerTheirResult := by
  intro b s
  simp only [← State.loaded_eq]
  exact ⟨exec_ldaImm_loaded b s, exec_ldaZp_loaded b s, exec_ldaZpX_loaded b s⟩

/-- Settles O16: the second stack byte would be at 0x10000. -/
theorem jsrAtTopOfMemoryFaults : Obligations.JsrAtTopOfMemoryFaults := fun target _ top => exec_jsr_top top target

end Sys2Proof.Machine
end

section
/-! SUPPORT. The four forms of a step that goes on, in one inversion lemma; and the statements about what every step
leaves (40_fetch_decode_dispatch.md R70 to R75). -/

namespace Sys2Proof.Machine

/-! ### The forms of a step -/

/-- The opcodes of the Load-Accumulator family (30_encoding.md R60). -/
def isLoad (op : Byte) : Prop := op = 0xA9#8 ∨ op = 0xA5#8 ∨ op = 0xB5#8

theorem decodeOpcode_ne_none_of_isLoad {op : Byte} (h : isLoad op) : decodeOpcode op ≠ none := by
  rcases h with rfl | rfl | rfl <;> decide

/-- PC past the byte, 1 cycle charged, the byte reported (R74). -/
def State.afterUnknown (s : State) : State :=
  ((s.setPc (s.pc + 1)).charge 1).appendLog (.unknown s.pc (opcodeAt s))

/-- The state `t` that a step from `s` leaves, by the byte at PC and, under JSR, by SP. -/
inductive StepForm (s : State) : State → Prop
  | unknown (h : decodeOpcode (opcodeAt s) = none) : StepForm s s.afterUnknown
  | load (h : isLoad (opcodeAt s)) (v : Byte) (cycles : Int) : StepForm s (s.afterLoad v cycles)
  | jsr (h : opcodeAt s = 0x20#8) (slot : s.sp ≠ 0xFFFF#16) : StepForm s s.afterJsr
  | jsrFault (h : opcodeAt s = 0x20#8) (top : s.sp = 0xFFFF#16) : StepForm s s.afterJsrFault

/-- A byte is an unknown opcode, a load's or JSR's. -/
theorem opcode_cases (op : Byte) : decodeOpcode op = none ∨ isLoad op ∨ op = 0x20#8 := by
  cases h : decodeOpcode op with
  | none => exact .inl rfl
  | some o =>
    have byte : op = o.byte := (decodeOpcode_eq_some_iff op o).1 h
    cases o with
    | ldaImm => exact .inr (.inl (.inl byte))
    | ldaZp => exact .inr (.inl (.inr (.inl byte)))
    | ldaZpX => exact .inr (.inl (.inr (.inr byte)))
    | jsr => exact .inr (.inr byte)

theorem step_next_form {s t : State} (h : step s = .next t) : StepForm s t := by
  have running := step_next_running h
  rcases opcode_cases (opcodeAt s) with unknown | load | jsr
  · obtain rfl := Host.Outcome.next.inj ((step_unknown running unknown).symm.trans h)
    exact .unknown unknown
  · obtain ⟨v, cycles, hload⟩ := step_load running load
    obtain rfl := Host.Outcome.next.inj (hload.symm.trans h)
    exact .load load v cycles
  · by_cases top : s.sp = 0xFFFF#16
    · obtain rfl := Host.Outcome.next.inj ((step_jsr_raises running jsr top).symm.trans h)
      exact .jsrFault jsr top
    · obtain rfl := Host.Outcome.next.inj ((step_jsr_writes running jsr top).symm.trans h)
      exact .jsr jsr top

/-- The log after a step: one record more under an unknown opcode, the same log otherwise (10_state.md R29). -/
theorem step_next_log {s t : State} (h : step s = .next t) :
    t.log = s.log ++ if decodeOpcode (opcodeAt s) = none then [.unknown s.pc (opcodeAt s)] else [] := by
  cases step_next_form h with
  | unknown unknown => rw [if_pos unknown]; rfl
  | load load => rw [if_neg (decodeOpcode_ne_none_of_isLoad load), List.append_nil]; rfl
  | jsr jsr => rw [jsr, if_neg (by decide), List.append_nil]; rfl
  | jsrFault jsr => rw [jsr, if_neg (by decide), List.append_nil]; rfl

/-! ### Steps in a row -/

/-- What one step from a state that meets `P` keeps, every run keeps, and none of its steps stops. -/
theorem core_run_keeps {P : State → Prop} (keeps : ∀ s, P s → ∃ t, step s = .next t ∧ P t) (k : Nat) {s : State}
    (h : P s) : ∃ t, Host.Core.run core k s = .next t ∧ P t := by
  induction k generalizing s with
  | zero => exact ⟨s, rfl, h⟩
  | succ k ih =>
    obtain ⟨t, hstep, ht⟩ := keeps s h
    obtain ⟨u, hrun, hu⟩ := ih ht
    exact ⟨u, (core_run_succ hstep k).trans hrun, hu⟩

/-- With a stack slot, one step completes, raises nothing and keeps the slot (60_exceptions.md R101). -/
theorem step_keeps_stackSlot {s : State} (running : NotFaulted s) (slot : StackSlotExists s) :
    ∃ t, step s = .next t ∧ NotFaulted t ∧ StackSlotExists t := by
  obtain ⟨t, hstep, -⟩ := step_next_charges running
  refine ⟨t, hstep, ?_, ?_⟩
  · exact (step_next_fault hstep).trans (if_neg fun raises => slot raises.2)
  · rwa [StackSlotExists, step_next_sp hstep]

/-! ### The obligations -/

/-- Settles O34: no fault and a stack slot are kept together by every step, so by every run. -/
theorem noFaultWhileStackSlotExists : Obligations.NoFaultWhileStackSlotExists := fun k _ running slot =>
  core_run_keeps (P := fun s => NotFaulted s ∧ StackSlotExists s) (fun _ h => step_keeps_stackSlot h.1 h.2) k
    ⟨running, slot⟩

/-- Settles O21: the fetch never raises and every handler ends in a next state. -/
theorem everyByteHasAStep : Obligations.EveryByteHasAStep := by
  intro s running
  obtain ⟨t, hstep, -⟩ := step_next_charges running
  exact ⟨t, hstep⟩

/-- Settles O28: none of the four forms touches a field that only the host writes. -/
theorem noStepWritesHostOnlyState : Obligations.NoStepWritesHostOnlyState := by
  intro s t h
  cases step_next_form h with
  | unknown => exact ⟨rfl, rfl, rfl, rfl, rfl, rfl, rfl, rfl⟩
  | load => exact ⟨rfl, rfl, rfl, rfl, rfl, rfl, rfl, rfl⟩
  | jsr => exact ⟨rfl, rfl, rfl, rfl, rfl, rfl, rfl, rfl⟩
  | jsrFault => exact ⟨rfl, rfl, rfl, rfl, rfl, rfl, rfl, rfl⟩

/-- Settles O30: of the four forms only the completed JSR writes memory, and only its stack slot. -/
theorem onlyJsrWritesMemory : Obligations.OnlyJsrWritesMemory := by
  intro s t h
  cases step_next_form h with
  | unknown => exact ⟨fun _ => rfl, fun _ _ _ => rfl⟩
  | load => exact ⟨fun _ => rfl, fun _ _ _ => rfl⟩
  | jsr jsr => exact ⟨fun noJsr => absurd jsr noJsr, fun _ => s.afterJsr_byteAt_other⟩
  | jsrFault => exact ⟨fun _ => rfl, fun _ _ _ => rfl⟩

/-- Settles O33: the log grows under an unknown opcode alone, and a fault is set under JSR alone. -/
theorem noStepReportsAndFaults : Obligations.NoStepReportsAndFaults := by
  intro s t h
  refine ⟨fun ⟨grew, faulted⟩ => grew ?_, step_next_log h⟩
  obtain ⟨faults_iff, -⟩ := onlyJsrAtTopOfMemoryFaults.1 s t h
  obtain ⟨jsr, -⟩ := faults_iff.1 faulted
  rw [step_next_log h, jsr, if_neg (by decide), List.append_nil]

/-- Settles O38: the next opcode is the byte at SP, where the completed JSR put the low byte of its return address. -/
theorem fetchSeesTheReturnAddressWritten : Obligations.FetchSeesTheReturnAddressWritten := by
  intro s t jsr slot h toSlot
  obtain rfl := Host.Outcome.next.inj ((step_jsr_writes (step_next_running h) jsr slot).symm.trans h)
  rw [opcodeAt, toSlot]
  exact s.afterJsr_byteAt_sp

/-- Settles O20: the first match of the step. -/
theorem faultedStepStops : Obligations.FaultedStepStops := by
  intro s f h
  rw [step, h]

end Sys2Proof.Machine
end

section
/-! SUPPORT. The step and the decoder read the same bytes at PC; and the statements about the instruction that a step
runs (40_fetch_decode_dispatch.md R70 to R73). -/

namespace Sys2Proof

/-- An encoding is as long as the format of its opcode (30_encoding.md R56, R62). -/
theorem encode_instr_length (o : Opcode) (operand : Word) : (encode (o.instr operand)).length = o.format.length := by
  cases o <;> rfl

theorem decode_of_decodeTableWord {nbits w : Nat} {i : Instr} (h : decodeTableWord nbits w = some i) :
    ∃ rest, decode (tableBytes nbits w) = .ok (i, rest) := by
  unfold decodeTableWord at h
  split at h
  · next j rest hdecode =>
    obtain rfl := Option.some.inj h
    exact ⟨rest, hdecode⟩
  · cases h

end Sys2Proof

namespace Sys2Proof.Machine

/-! ### The bytes at PC -/

/-- The decoder takes from the bytes at PC the operand that the fetch finds there. -/
theorem takeOperand_at_pc (f : Format) (s : State) :
    ∃ rest, takeOperand f [s.byteAt (s.pc + 1).toNat, s.byteAt (s.pc + 2).toNat] = some (operandAt f s, rest) := by
  cases f with
  | op => exact ⟨_, rfl⟩
  | imm8 => exact ⟨_, rfl⟩
  | zp8 => exact ⟨_, rfl⟩
  | abs16 =>
    have second : s.pc + 1 + 1 = s.pc + 2 := BitVec.add_assoc ..
    exact ⟨[], by rw [operandAt, second]; rfl⟩

/-- What the decoder reads from the bytes at PC is the opcode there with the operand behind it. -/
theorem decode_codeBytes {s : State} {i : Instr} {rest : List Byte} (h : decode (codeBytes s) = .ok (i, rest)) :
    ∃ o, decodeOpcode (opcodeAt s) = some o ∧ i = o.instr (operandAt o.format s) := by
  obtain ⟨o, operand, hop, htake, rfl⟩ := (decode_cons_eq_ok_iff ..).1 h
  obtain ⟨rest', hfound⟩ := takeOperand_at_pc o.format s
  rw [hfound] at htake
  cases htake
  exact ⟨o, hop, rfl⟩

/-- Where the bytes at PC decode, a step runs what they decode to, past its bytes. -/
theorem step_of_decode_codeBytes {s : State} {i : Instr} {rest : List Byte} (running : s.fault = none)
    (h : decode (codeBytes s) = .ok (i, rest)) : step s = exec i (pastInstr (encode i).length s) := by
  obtain ⟨o, hop, rfl⟩ := decode_codeBytes h
  rw [step_known_operandAt running hop, encode_instr_length]

/-- Three bytes laid out at PC are the bytes the next step can fetch: the three addresses differ modulo 2^16. -/
theorem codeBytes_placeBytes (s : State) (b₀ b₁ b₂ : Byte) :
    codeBytes (s.setMem (placeBytes s.pc [b₀, b₁, b₂] s.mem)) = [b₀, b₁, b₂] := by
  have first := s.pc_add_one_toNat
  have second := s.pc_add_two_toNat
  have next : s.pc + 1 + 1 = s.pc + 2 := BitVec.add_assoc ..
  have zero_one : s.pc.toNat ≠ (s.pc + 1).toNat := by omega
  have zero_two : s.pc.toNat ≠ (s.pc + 2).toNat := by omega
  have one_two : (s.pc + 1).toNat ≠ (s.pc + 2).toNat := by omega
  simp only [codeBytes, placeBytes, State.setMem_pc, State.setMem_byteAt, Memory.read_write, next, if_neg zero_one,
    if_neg zero_two, if_neg one_two, if_true]

/-! ### The obligations -/

/-- Settles O19: the decoder and the fetch read one instruction from the bytes at PC. -/
theorem stepRunsTheDecodedInstruction : Obligations.StepRunsTheDecodedInstruction := fun _ _ _ =>
  step_of_decode_codeBytes

/-- Settles O53: the bytes at PC are then the word's. -/
theorem loadedWordRuns : Obligations.LoadedWordRuns := by
  intro s nbits w i running h
  obtain ⟨rest, hdecode⟩ := decode_of_decodeTableWord h
  have bytes : codeBytes (s.withFetchWord nbits w) = tableBytes nbits w := codeBytes_placeBytes s _ _ _
  exact step_of_decode_codeBytes (s := s.withFetchWord nbits w) running (bytes ▸ hdecode)

end Sys2Proof.Machine
end

section
/-! SUPPORT. A step reads neither the log nor a flag nor Y: it does the same with any others; and the statements about
it (10_state.md R19, R24, R25, R29). -/

namespace Sys2Proof.Machine

/-- The same state with other records in front of the log, other flags and another Y. -/
def State.withUnread (older : List LogRecord) (f : Flags) (y : Byte) (s : State) : State :=
  { s with log := older ++ s.log, flags := f, y := y }

/-- A load finds the same value at the same cost whatever stands in the fields it does not read. -/
theorem step_load_withUnread {s : State} (running : s.fault = none) (load : isLoad (opcodeAt s))
    (older : List LogRecord) (f : Flags) (y : Byte) :
    ∃ v cycles, step s = .next (s.afterLoad v cycles) ∧
      step (s.withUnread older f y) = .next ((s.withUnread older f y).afterLoad v cycles) := by
  rcases load with imm | zp | zpX
  · exact ⟨_, _, step_ldaImm running imm, step_ldaImm (s := s.withUnread older f y) running imm⟩
  · exact ⟨_, _, step_ldaZp running zp, step_ldaZp (s := s.withUnread older f y) running zp⟩
  · exact ⟨_, _, step_ldaZpX running zpX, step_ldaZpX (s := s.withUnread older f y) running zpX⟩

/-- With other contents in the three fields a step leaves the same state with those contents, but for the Z and N that a
load writes. -/
theorem step_withUnread {s t : State} (h : step s = .next t) (older : List LogRecord) (f : Flags) (y : Byte) :
    ∃ f', step (s.withUnread older f y) = .next (t.withUnread older f' y) ∧
      (isLoad (opcodeAt s) → f' = { f with z := t.flags.z, n := t.flags.n }) ∧ (¬ isLoad (opcodeAt s) → f' = f) := by
  have running := step_next_running h
  by_cases load : isLoad (opcodeAt s)
  · obtain ⟨v, cycles, hload, hother⟩ := step_load_withUnread running load older f y
    obtain rfl := Host.Outcome.next.inj (hload.symm.trans h)
    exact ⟨_, hother, fun _ => rfl, fun noLoad => absurd load noLoad⟩
  · refine ⟨f, ?_, fun isLoad => absurd isLoad load, fun _ => rfl⟩
    cases step_next_form h with
    | unknown unknown =>
      rw [step_unknown (s := s.withUnread older f y) running unknown]
      simp only [State.withUnread, State.afterUnknown, State.appendLog, ← List.append_assoc]
      rfl
    | load isLoad => exact absurd isLoad load
    | jsr jsr slot => exact step_jsr_writes (s := s.withUnread older f y) running jsr slot
    | jsrFault jsr top => exact step_jsr_raises (s := s.withUnread older f y) running jsr top

/-! ### The obligations -/

/-- Settles O37: no records put in front of the log. -/
theorem stepIgnoresFlagsAndY : Obligations.StepIgnoresFlagsAndY := by
  intro s t f y' h
  obtain ⟨f', hstep, onLoad, otherwise⟩ := step_withUnread h [] f y'
  refine ⟨f', hstep, onLoad, fun noImm noZp noZpX => otherwise ?_⟩
  exact not_or.2 ⟨noImm, not_or.2 ⟨noZp, noZpX⟩⟩

/-- Settles O36: the flags and Y left as they are, so that the step leaves them as it did. -/
theorem stepIgnoresTheLog : Obligations.StepIgnoresTheLog := by
  intro s t older h
  obtain ⟨f', hstep, onLoad, otherwise⟩ := step_withUnread h older s.flags s.y
  obtain ⟨-, -, y, -⟩ := noStepWritesHostOnlyState s t h
  have flags : f' = t.flags := by
    obtain ⟨afterLoad, afterOther⟩ := zeroAndNegativeFollowLoads s t h
    by_cases load : isLoad (opcodeAt s)
    · obtain ⟨-, -, -, written⟩ := afterLoad load
      exact (onLoad load).trans written.symm
    · obtain ⟨noImm, noZp, noZpX⟩ : opcodeAt s ≠ 0xA9#8 ∧ opcodeAt s ≠ 0xA5#8 ∧ opcodeAt s ≠ 0xB5#8 := by
        simpa only [isLoad, not_or] using load
      exact (otherwise load).trans (afterOther noImm noZp noZpX).2.symm
  have same : t.withUnread older t.flags s.y = { t with log := older ++ t.log } := by
    rw [← y]
    rfl
  rw [flags, same] at hstep
  exact hstep

end Sys2Proof.Machine
end

section
/-! SUPPORT. The invariant of the machine through steps, executes, host writes and resets; and the statements about it
(20_memory.md R34, 60_exceptions.md R97). -/

namespace Sys2Proof.Machine

/-! ### Through a step -/

/-- A step leaves the memory in canonical form: only a JSR that has both stack bytes writes it. -/
theorem step_keeps_wf {s t : State} (canonical : Memory.wf s.mem) (h : step s = .next t) : Memory.wf t.mem := by
  cases step_next_form h with
  | unknown => exact canonical
  | load => exact canonical
  | jsr _ slot =>
    have exist : s.sp.toNat + 1 < Config.memSize := (stackSlot_exists_iff s).2 slot
    exact Memory.wf_write (Memory.wf_write canonical (toNat_lt_memSize s.sp) _) exist _
  | jsrFault => exact canonical

theorem step_keeps_stateInv {s t : State} (inv : StateInv s) (h : step s = .next t) : StateInv t := by
  refine ⟨step_keeps_wf inv.1 h, ?_⟩
  rw [step_next_fault h]
  split
  · exact .inr rfl
  · exact .inl rfl

/-! ### Through the operations of the host -/

/-- What every step keeps, the loop of `execute` keeps. -/
theorem executeLoop_keeps {P : State → Prop} (keeps : ∀ s t, P s → step s = .next t → P t) (fuel : Nat) {s : State}
    (h : P s) : P (executeLoop fuel s) := by
  induction fuel generalizing s with
  | zero => exact h
  | succ fuel ih =>
    by_cases go : 0 < s.budget ∧ s.fault = none
    · obtain ⟨t, hstep, -⟩ := step_next_charges go.2
      rw [executeLoop_steps go.1 go.2 hstep]
      exact ih (keeps s t h hstep)
    · rwa [executeLoop_stops go]

theorem execute_keeps_stateInv {s : State} (inv : StateInv s) (n : Int) : StateInv (execute n s).1 :=
  executeLoop_keeps (fun _ _ => step_keeps_stateInv) n.toNat (s := s.setBudget n) inv

/-- The host's only write to memory is of one byte at a 16-bit address. -/
theorem hostWrite_keeps_stateInv {s : State} (inv : StateInv s) (w : HostWrite) : StateInv (hostWrite w s) := by
  obtain ⟨canonical, fault⟩ := inv
  cases w with
  | byte addr v => exact ⟨Memory.wf_write canonical (toNat_lt_memSize addr) v, fault⟩
  | pc | sp | a | x | y | flag => exact ⟨canonical, fault⟩

theorem hostReset_stateInv (s : State) : StateInv (hostReset s) := ⟨Memory.wf_initialised, .inl rfl⟩

/-! ### The obligations -/

/-- Settles O40: memory by the form of the step, the fault by the one equation for it. -/
theorem stepKeepsStateInv : Obligations.StepKeepsStateInv := fun _ _ => step_keeps_stateInv

/-- Settles O41: no byte is listed and no fault is set. -/
theorem resetMeetsStateInv : Obligations.ResetMeetsStateInv := ⟨Memory.wf_reset, .inl rfl⟩

/-- Settles O42: by induction on the session. -/
theorem sessionMeetsStateInv : Obligations.SessionMeetsStateInv := by
  intro s session
  induction session with
  | start => exact resetMeetsStateInv
  | reset _ _ => exact hostReset_stateInv _
  | write w _ ih => exact hostWrite_keeps_stateInv ih w
  | execute n _ ih => exact execute_keeps_stateInv ih n

end Sys2Proof.Machine
end

section
/-! SUPPORT. An `execute` cut into two; and the statements about calls of `execute` (40_fetch_decode_dispatch.md R68,
70_reset_and_hazards.md R119). -/

namespace Sys2Proof.Machine

/-- `execute` sets the budget before anything reads it. -/
theorem execute_setBudget (n m : Int) (s : State) : execute n (s.setBudget m) = execute n s := rfl

/-- A call that runs one step returns what that step charged and what the call on the budget left returns. -/
theorem execute_step_consumed {n : Int} {s t : State} (positive : 0 < n) (h : step (s.setBudget n) = .next t) :
    (execute n s).2 = n - t.budget + (execute t.budget t).2 := by
  rw [execute_returned, execute_returned, execute_step positive h]
  omega

/-- The step that a call with a larger request begins with. -/
theorem step_setBudget {m : Int} {s t : State} (h : step (s.setBudget m) = .next t) (n : Int) :
    step (s.setBudget n) = .next (t.setBudget (n - (m - t.budget))) := by
  have before : (s.setBudget m).charge (m - n) = s.setBudget n := by simp [State.charge, State.setBudget]
  have left : t.budget - (m - n) = n - (m - t.budget) := by omega
  rw [← left, ← before]
  exact step_charge h (m - n)

/-- The state that a larger call ends in, by induction on the steps that the smaller call can take. -/
theorem execute_split (fuel : Nat) {m n : Int} {s : State} (enough : m ≤ fuel) (le : m ≤ n) :
    (execute n s).1 = (execute (n - (execute m s).2) (execute m s).1).1 := by
  induction fuel generalizing m n s with
  | zero => rw [execute_nonpos enough, Int.sub_zero, execute_setBudget]
  | succ fuel ih =>
    by_cases go : 0 < m ∧ s.fault = none
    · obtain ⟨t, hstep, hcharge⟩ := step_next_charges (s := s.setBudget m) go.2
      rw [State.setBudget_budget] at hcharge
      have left : n - (m - t.budget) - (execute t.budget t).2 = n - (execute m s).2 := by
        rw [execute_step_consumed go.1 hstep]
        omega
      calc (execute n s).1
          = (execute (n - (m - t.budget)) t).1 := execute_step (by omega) (step_setBudget hstep n)
        _ = (execute (n - (execute m s).2) (execute t.budget t).1).1 := by
          rw [ih (m := t.budget) (by push_cast at enough; omega) (by omega), left]
        _ = (execute (n - (execute m s).2) (execute m s).1).1 := by rw [execute_step go.1 hstep]
    · have stops : execute m s = (s.setBudget m, 0) := by
        by_cases nonpos : m ≤ 0
        · exact execute_nonpos nonpos s
        · exact execute_faulted (fun running => go ⟨by omega, running⟩) m
      rw [stops, Int.sub_zero, execute_setBudget]

/-! ### The obligations -/

/-- Settles O50: the two calls end in the one state, and each total is a difference of budgets. -/
theorem executeSplitsIntoConsecutiveCalls : Obligations.ExecuteSplitsIntoConsecutiveCalls := by
  intro m n s le
  have ends := execute_split m.toNat (s := s) (Int.self_le_toNat m) le
  refine Prod.ext ends ?_
  change (execute n s).2 = (execute m s).2 + (execute (n - (execute m s).2) (execute m s).1).2
  rw [execute_returned n, execute_returned (n - _), ends]
  omega

/-- Settles O51: the first step charges at least the one cycle asked for, so the loop ends after it. -/
theorem executeOneRunsOneInstruction : Obligations.ExecuteOneRunsOneInstruction := by
  intro s running
  obtain ⟨t, hstep, hcharge⟩ := step_next_charges (s := s.setBudget 1) running
  rw [State.setBudget_budget] at hcharge
  have ends : (execute 1 s).1 = t := by
    rw [execute_step (by decide) hstep, execute_nonpos (by omega)]
    rfl
  exact ⟨t, hstep, Prod.ext ends (by rw [execute_returned, ends])⟩

/-- Settles O52: a call on a faulted machine runs nothing, and no host write reaches the fault field. -/
theorem faultStaysUntilReset : Obligations.FaultStaysUntilReset := by
  intro s f n w faulted
  refine ⟨?_, ?_, hostReset_fault s⟩
  · rw [execute_faulted (by rw [faulted]; exact Option.some_ne_none f)]
    exact faulted
  · cases w <;> exact faulted

end Sys2Proof.Machine
end

section
/-! SUPPORT. The state in which the host has written a JSR where reset points PC; and the statements about reset and the
host's writes (70_reset_and_hazards.md R115, 00_scope.md R13). -/

namespace Sys2Proof.Machine

/-! ### A JSR at the reset PC (95_test_vectors.md W5) -/

/-- Reset, and then the three bytes of a JSR written at 0xFFFC. -/
def State.resetWithJsr (lo hi : Byte) (s : State) : State :=
  hostWrites [.byte 0xFFFC#16 0x20#8, .byte 0xFFFD#16 lo, .byte 0xFFFE#16 hi] (hostReset s)

theorem State.resetWithJsr_pc (lo hi : Byte) (s : State) : (s.resetWithJsr lo hi).pc = 0xFFFC#16 := rfl

theorem State.resetWithJsr_sp (lo hi : Byte) (s : State) : (s.resetWithJsr lo hi).sp = 0x0100#16 := rfl

theorem State.resetWithJsr_byteAt (lo hi : Byte) (s : State) (addr : Nat) :
    (s.resetWithJsr lo hi).byteAt addr =
      if addr = 0xFFFE then hi else if addr = 0xFFFD then lo else if addr = 0xFFFC then 0x20#8 else 0x00#8 := by
  simp only [State.resetWithJsr, hostWrites, List.foldl, hostWrite, State.setMem_byteAt, State.setMem_mem,
    Memory.read_write]
  rfl

/-- The first opcode is the byte at 0xFFFC itself (R115). -/
theorem State.resetWithJsr_opcodeAt (lo hi : Byte) (s : State) : opcodeAt (s.resetWithJsr lo hi) = 0x20#8 :=
  s.resetWithJsr_byteAt lo hi 0xFFFC

theorem State.resetWithJsr_step (lo hi : Byte) (s : State) :
    step (s.resetWithJsr lo hi) = .next (s.resetWithJsr lo hi).afterJsr :=
  step_jsr_writes rfl (s.resetWithJsr_opcodeAt lo hi) (by decide : Config.resetSp ≠ 0xFFFF#16)

/-! ### The obligations -/

/-- Settles O44: the step of that JSR, its target at 0xFFFD and its return address 0xFFFE. -/
theorem firstInstructionAfterResetIsAtFFFC : Obligations.FirstInstructionAfterResetIsAtFFFC := by
  intro s lo hi
  have high : (s.resetWithJsr lo hi).byteAt 0xFFFE = hi := s.resetWithJsr_byteAt lo hi 0xFFFE
  have low : (s.resetWithJsr lo hi).byteAt 0xFFFD = lo := s.resetWithJsr_byteAt lo hi 0xFFFD
  have returnLow : (s.resetWithJsr lo hi).afterJsr.byteAt 0x0100 = 0xFE#8 := by
    rw [State.afterJsr_byteAt, s.resetWithJsr_pc, s.resetWithJsr_sp]
    rfl
  have returnHigh : (s.resetWithJsr lo hi).afterJsr.byteAt 0x0101 = 0xFF#8 := by
    rw [State.afterJsr_byteAt, s.resetWithJsr_pc, s.resetWithJsr_sp]
    rfl
  refine ⟨_, s.resetWithJsr_step lo hi, ?_, returnLow, returnHigh, rfl, rfl⟩
  calc (operandAt .abs16 (s.resetWithJsr lo hi)).toNat
      = ((s.resetWithJsr lo hi).byteAt 0xFFFE).toNat * 256 + ((s.resetWithJsr lo hi).byteAt 0xFFFD).toNat :=
        operandAt_abs16_toNat _
    _ = hi.toNat * 256 + lo.toNat := by rw [high, low]

/-- Settles O45: each write is an update of one field, and in it of one flag or one byte. -/
theorem hostWritesChangeOneThing : Obligations.HostWritesChangeOneThing := by
  intro s v w name other bit addr
  exact ⟨rfl, rfl, rfl, rfl, rfl, rfl, Flags.get_set s.flags name other bit, rfl, s.byteAt_write w.toNat v addr⟩

end Sys2Proof.Machine
end
